-- ==== Sys2Proof/Word.lean ====
section
/-! DEFINITION. The machine's data widths (00_scope.md R7): bytes, 16-bit words, and the 4-bit indices of registers and keys. -/

namespace Sys2Proof

/-- An 8-bit value: a general register, a timer, a memory byte, an `NN` immediate (R7, R30, R38, R80). -/
abbrev Byte := BitVec 8

/-- A 16-bit value: an instruction word, `pc`, `I`, a call-stack entry (R7, R33, R36, R37). -/
abbrev Word := BitVec 16

/-- A 12-bit address field `NNN` (R111). -/
abbrev Addr := BitVec 12

/-- A 4-bit immediate field `N` (R111). -/
abbrev Nibble := BitVec 4

/-- The number of a general register, 0 to 15 (R30). -/
abbrev RegIx := Fin 16

/-- The number of a key, 0 to 15 (R41, R250). -/
abbrev KeyIx := Fin 16

/-- VF, register 15, which doubles as the flag (R31). -/
abbrev vF : RegIx := 15

end Sys2Proof
end

