-- ==== Sys2Proof/Syntax.lean ====
section
/-! DEFINITION. The instructions: one constructor per row of spec/opcode_table.json (30_encoding.md R113, R123), the 34
instructions and the six fallback rows of the no-op space (R121). -/

namespace Sys2Proof

/-- An instruction with its fields (R111, R112): `x`, `y` register numbers, `n` the 4-bit, `nn` the 8-bit and `nnn` the 12-bit
immediate. -/
inductive Instr where
  /-- `00E0` CLS: clear the display (R231). -/
  | cls
  /-- `00EE` RET: return from subroutine (R161). -/
  | ret
  /-- `1NNN` JP addr (R162). -/
  | jp (nnn : Addr)
  /-- `2NNN` CALL addr (R163). -/
  | call (nnn : Addr)
  /-- `3XNN` SE Vx, byte (R164). -/
  | seImm (x : RegIx) (nn : Byte)
  /-- `4XNN` SNE Vx, byte (R165). -/
  | sneImm (x : RegIx) (nn : Byte)
  /-- `5XY0` SE Vx, Vy (R166). -/
  | seReg (x y : RegIx)
  /-- `6XNN` LD Vx, byte (R183). -/
  | ldImm (x : RegIx) (nn : Byte)
  /-- `7XNN` ADD Vx, byte (R184). -/
  | addImm (x : RegIx) (nn : Byte)
  /-- `8XY0` LD Vx, Vy (R185). -/
  | ldReg (x y : RegIx)
  /-- `8XY1` OR Vx, Vy (R186). -/
  | orReg (x y : RegIx)
  /-- `8XY2` AND Vx, Vy (R187). -/
  | andReg (x y : RegIx)
  /-- `8XY3` XOR Vx, Vy (R188). -/
  | xorReg (x y : RegIx)
  /-- `8XY4` ADD Vx, Vy with carry into VF (R189). -/
  | addReg (x y : RegIx)
  /-- `8XY5` SUB Vx, Vy with not-borrow into VF (R190). -/
  | sub (x y : RegIx)
  /-- `8XY6` SHR Vx, Vy (R191). -/
  | shr (x y : RegIx)
  /-- `8XY7` SUBN Vx, Vy (R192). -/
  | subn (x y : RegIx)
  /-- `8XYE` SHL Vx, Vy (R193). -/
  | shl (x y : RegIx)
  /-- `9XY0` SNE Vx, Vy (R167). -/
  | sneReg (x y : RegIx)
  /-- `ANNN` LD I, addr (R210). -/
  | ldI (nnn : Addr)
  /-- `BNNN` JP V0, addr (R168). -/
  | jpV0 (nnn : Addr)
  /-- `CXNN` RND Vx, byte (R195). -/
  | rnd (x : RegIx) (nn : Byte)
  /-- `DXYN` DRW Vx, Vy, nibble (R232, R233). -/
  | drw (x y : RegIx) (n : Nibble)
  /-- `EX9E` SKP Vx (R251). -/
  | skp (x : RegIx)
  /-- `EXA1` SKNP Vx (R252). -/
  | sknp (x : RegIx)
  /-- `FX07` LD Vx, DT (R253). -/
  | ldVxDt (x : RegIx)
  /-- `FX0A` LD Vx, K: wait for a key (R254). -/
  | ldVxK (x : RegIx)
  /-- `FX15` LD DT, Vx (R257). -/
  | ldDtVx (x : RegIx)
  /-- `FX18` LD ST, Vx (R258). -/
  | ldStVx (x : RegIx)
  /-- `FX1E` ADD I, Vx (R211). -/
  | addI (x : RegIx)
  /-- `FX29` LD F, Vx: font glyph address (R212). -/
  | ldF (x : RegIx)
  /-- `FX33` LD B, Vx: store BCD digits (R213). -/
  | ldB (x : RegIx)
  /-- `FX55` LD [I], Vx: store V0 to VX (R214). -/
  | ldMemRegs (x : RegIx)
  /-- `FX65` LD Vx, [I]: load V0 to VX (R215). -/
  | ldRegsMem (x : RegIx)
  /-- `0NNN` SYS addr, other than 00E0 and 00EE: a no-op (R114, R145). -/
  | sys (nnn : Addr)
  /-- `5XYN` with `N` not 0: a no-op (R116, R145). -/
  | nop5 (x y : RegIx) (n : Nibble)
  /-- `8XYN` with `N` in 8, 9, A, B, C, D, F: a no-op (R115, R145). -/
  | nop8 (x y : RegIx) (n : Nibble)
  /-- `9XYN` with `N` not 0: a no-op (R116, R145). -/
  | nop9 (x y : RegIx) (n : Nibble)
  /-- `EXNN` with `NN` not 9E or A1: a no-op (R117, R145). -/
  | nopE (x : RegIx) (nn : Byte)
  /-- `FXNN` with `NN` none of the nine listed: a no-op (R118, R145). -/
  | nopF (x : RegIx) (nn : Byte)
deriving DecidableEq, Repr

/-- Is this one of the six fallback rows, the no-op space of R121? -/
def Instr.isNoOp : Instr → Bool
  | .sys _ | .nop5 _ _ _ | .nop8 _ _ _ | .nop9 _ _ _ | .nopE _ _ | .nopF _ _ => true
  | .cls | .ret | .jp _ | .call _ | .seImm _ _ | .sneImm _ _ | .seReg _ _ | .ldImm _ _ | .addImm _ _ | .ldReg _ _
  | .orReg _ _ | .andReg _ _ | .xorReg _ _ | .addReg _ _ | .sub _ _ | .shr _ _ | .subn _ _ | .shl _ _ | .sneReg _ _
  | .ldI _ | .jpV0 _ | .rnd _ _ | .drw _ _ _ | .skp _ | .sknp _ | .ldVxDt _ | .ldVxK _ | .ldDtVx _ | .ldStVx _
  | .addI _ | .ldF _ | .ldB _ | .ldMemRegs _ | .ldRegsMem _ => false

end Sys2Proof
end

