-- ==== Sys2Proof/WellFormed.lean ====
section
/-! DEFINITION. Which terms of Instr stand for a word. The 34 instructions have no constraint (R119: every value of every field
is legal); a fallback row covers only the words that no instruction of its family covers (30_encoding.md R113 to R121). -/

namespace Sys2Proof

/-- The `NNN` that select 00E0 and 00EE, and so are no SYS (R114). -/
def namedSys : List Addr := [0x0E0#12, 0x0EE#12]

/-- The sub-opcodes `N` of family 8 that are instructions (R115). -/
def aluOps : List Nibble := [0x0#4, 0x1#4, 0x2#4, 0x3#4, 0x4#4, 0x5#4, 0x6#4, 0x7#4, 0xE#4]

/-- The sub-opcodes `NN` of family E that are instructions (R117). -/
def keyOps : List Byte := [0x9E#8, 0xA1#8]

/-- The sub-opcodes `NN` of family F that are instructions (R118). -/
def miscOps : List Byte := [0x07#8, 0x0A#8, 0x15#8, 0x18#8, 0x1E#8, 0x29#8, 0x33#8, 0x55#8, 0x65#8]

/-- The check on each constructor's fields: a fallback row holds no sub-opcode of an instruction (R121). -/
def wellFormed : Instr → Bool
  | .sys nnn => !namedSys.contains nnn
  | .nop5 _ _ n => n != 0#4
  | .nop8 _ _ n => !aluOps.contains n
  | .nop9 _ _ n => n != 0#4
  | .nopE _ nn => !keyOps.contains nn
  | .nopF _ nn => !miscOps.contains nn
  | .cls | .ret | .jp _ | .call _ | .seImm _ _ | .sneImm _ _ | .seReg _ _ | .ldImm _ _ | .addImm _ _ | .ldReg _ _
  | .orReg _ _ | .andReg _ _ | .xorReg _ _ | .addReg _ _ | .sub _ _ | .shr _ _ | .subn _ _ | .shl _ _ | .sneReg _ _
  | .ldI _ | .jpV0 _ | .rnd _ _ | .drw _ _ _ | .skp _ | .sknp _ | .ldVxDt _ | .ldVxK _ | .ldDtVx _ | .ldStVx _
  | .addI _ | .ldF _ | .ldB _ | .ldMemRegs _ | .ldRegsMem _ => true

end Sys2Proof
end

