-- ==== Sys2Proof/Decode.lean ====
section
/-! DEFINITION. The decoder (30_encoding.md R110 to R121, 40_step_cycle.md R143), total on words, and on byte strings rejecting
only a string too short to hold a word; then the encoder. -/

namespace Sys2Proof

/-- The big-endian word of the byte at the lower address and the byte after it (R83, R110). -/
def wordOfBytes (hi lo : Byte) : Word := hi ++ lo

/-- The byte of a word that lies at the lower address: bits 15:8 (R83). -/
def highByte (w : Word) : Byte := w.extractLsb' 8 8

/-- The byte of a word that lies at the higher address: bits 7:0 (R83). -/
def lowByte (w : Word) : Byte := w.extractLsb' 0 8

/-- Field `F`, bits 15:12, the opcode family (R111). -/
def fieldF (w : Word) : Nibble := w.extractLsb' 12 4

/-- Field `X`, bits 11:8 (R111). -/
def fieldX (w : Word) : RegIx := (w.extractLsb' 8 4).toFin

/-- Field `Y`, bits 7:4 (R111). -/
def fieldY (w : Word) : RegIx := (w.extractLsb' 4 4).toFin

/-- Field `N`, bits 3:0 (R111). -/
def fieldN (w : Word) : Nibble := w.extractLsb' 0 4

/-- Field `NN`, bits 7:0 (R111). -/
def fieldNN (w : Word) : Byte := w.extractLsb' 0 8

/-- Field `NNN`, bits 11:0 (R111). -/
def fieldNNN (w : Word) : Addr := w.extractLsb' 0 12

/-- Family 0 matches whole words (R114). -/
def decodeFamily0 (w : Word) : Instr :=
  if w = 0x00E0#16 then .cls else if w = 0x00EE#16 then .ret else .sys (fieldNNN w)

/-- Family 5 is selected by `N` = 0 (R116). -/
def decodeFamily5 (w : Word) : Instr :=
  if fieldN w = 0#4 then .seReg (fieldX w) (fieldY w) else .nop5 (fieldX w) (fieldY w) (fieldN w)

/-- Family 8 is selected by `N` (R115). -/
def decodeFamily8 (w : Word) : Instr :=
  match (fieldN w).toNat with
  | 0x0 => .ldReg (fieldX w) (fieldY w)
  | 0x1 => .orReg (fieldX w) (fieldY w)
  | 0x2 => .andReg (fieldX w) (fieldY w)
  | 0x3 => .xorReg (fieldX w) (fieldY w)
  | 0x4 => .addReg (fieldX w) (fieldY w)
  | 0x5 => .sub (fieldX w) (fieldY w)
  | 0x6 => .shr (fieldX w) (fieldY w)
  | 0x7 => .subn (fieldX w) (fieldY w)
  | 0xE => .shl (fieldX w) (fieldY w)
  | _ => .nop8 (fieldX w) (fieldY w) (fieldN w)

/-- Family 9 is selected by `N` = 0 (R116). -/
def decodeFamily9 (w : Word) : Instr :=
  if fieldN w = 0#4 then .sneReg (fieldX w) (fieldY w) else .nop9 (fieldX w) (fieldY w) (fieldN w)

/-- Family E is selected by `NN` (R117). -/
def decodeFamilyE (w : Word) : Instr :=
  if fieldNN w = 0x9E#8 then .skp (fieldX w)
  else if fieldNN w = 0xA1#8 then .sknp (fieldX w)
  else .nopE (fieldX w) (fieldNN w)

/-- Family F is selected by `NN` (R118). -/
def decodeFamilyF (w : Word) : Instr :=
  if fieldNN w = 0x07#8 then .ldVxDt (fieldX w)
  else if fieldNN w = 0x0A#8 then .ldVxK (fieldX w)
  else if fieldNN w = 0x15#8 then .ldDtVx (fieldX w)
  else if fieldNN w = 0x18#8 then .ldStVx (fieldX w)
  else if fieldNN w = 0x1E#8 then .addI (fieldX w)
  else if fieldNN w = 0x29#8 then .ldF (fieldX w)
  else if fieldNN w = 0x33#8 then .ldB (fieldX w)
  else if fieldNN w = 0x55#8 then .ldMemRegs (fieldX w)
  else if fieldNN w = 0x65#8 then .ldRegsMem (fieldX w)
  else .nopF (fieldX w) (fieldNN w)

/-- The instruction of a word: dispatch on the family, then on the sub-opcode (R113, R119, R143). Total: no word is refused
(R120, R121). The last arm is family 0xF, the only value of the 4-bit field not listed before it. -/
def decode (w : Word) : Instr :=
  match (fieldF w).toNat with
  | 0x0 => decodeFamily0 w
  | 0x1 => .jp (fieldNNN w)
  | 0x2 => .call (fieldNNN w)
  | 0x3 => .seImm (fieldX w) (fieldNN w)
  | 0x4 => .sneImm (fieldX w) (fieldNN w)
  | 0x5 => decodeFamily5 w
  | 0x6 => .ldImm (fieldX w) (fieldNN w)
  | 0x7 => .addImm (fieldX w) (fieldNN w)
  | 0x8 => decodeFamily8 w
  | 0x9 => decodeFamily9 w
  | 0xA => .ldI (fieldNNN w)
  | 0xB => .jpV0 (fieldNNN w)
  | 0xC => .rnd (fieldX w) (fieldNN w)
  | 0xD => .drw (fieldX w) (fieldY w) (fieldN w)
  | 0xE => decodeFamilyE w
  | _ => decodeFamilyF w

/-- Why a byte string holds no instruction: it has fewer than the two bytes of a word (R110). No other string is refused. -/
inductive DecodeError where
  | truncated
deriving DecidableEq, Repr

/-- Decode the instruction at the front of a byte string, lowest address first, and return it with the rest (R83, R110). -/
def decodeBytes : List Byte → Except DecodeError (Instr × List Byte)
  | hi :: lo :: rest => .ok (decode (wordOfBytes hi lo), rest)
  | [_] => .error .truncated
  | [] => .error .truncated

/-- The word whose low `nbits` bits are those of `w` and whose other bits are 0. -/
def tableWord (nbits w : Nat) : Word := BitVec.ofNat 16 (w % 2 ^ nbits)

/-- What the decoder reads from an instruction of at most 16 bits that spec/opcode_table.json numbers as `w`: its word is laid
out big-endian (R83). An instruction has 16 bits (R110), so a longer one is none. -/
def decodeTableWord (nbits w : Nat) : Option Instr :=
  if nbits ≤ 16 then
    match decodeBytes [highByte (tableWord nbits w), lowByte (tableWord nbits w)] with
    | .ok (i, _) => some i
    | .error _ => none
  else none

/-- The word with family `f` and a 12-bit field (R111). -/
def wordNNN (f : Nat) (nnn : Addr) : Word := BitVec.ofNat 16 (f * 0x1000 + nnn.toNat)

/-- The word with family `f`, a register field and an 8-bit field (R111). -/
def wordXNN (f : Nat) (x : RegIx) (nn : Byte) : Word := BitVec.ofNat 16 (f * 0x1000 + x.val * 0x100 + nn.toNat)

/-- The word with family `f`, two register fields and a 4-bit field (R111). -/
def wordXYN (f : Nat) (x y : RegIx) (n : Nibble) : Word :=
  BitVec.ofNat 16 (f * 0x1000 + x.val * 0x100 + y.val * 0x10 + n.toNat)

/-- The word of an instruction (R113 to R119). For a well-formed instruction, the word that decodes to it. -/
def encode : Instr → Word
  | .cls => 0x00E0#16
  | .ret => 0x00EE#16
  | .jp nnn => wordNNN 0x1 nnn
  | .call nnn => wordNNN 0x2 nnn
  | .seImm x nn => wordXNN 0x3 x nn
  | .sneImm x nn => wordXNN 0x4 x nn
  | .seReg x y => wordXYN 0x5 x y 0x0#4
  | .ldImm x nn => wordXNN 0x6 x nn
  | .addImm x nn => wordXNN 0x7 x nn
  | .ldReg x y => wordXYN 0x8 x y 0x0#4
  | .orReg x y => wordXYN 0x8 x y 0x1#4
  | .andReg x y => wordXYN 0x8 x y 0x2#4
  | .xorReg x y => wordXYN 0x8 x y 0x3#4
  | .addReg x y => wordXYN 0x8 x y 0x4#4
  | .sub x y => wordXYN 0x8 x y 0x5#4
  | .shr x y => wordXYN 0x8 x y 0x6#4
  | .subn x y => wordXYN 0x8 x y 0x7#4
  | .shl x y => wordXYN 0x8 x y 0xE#4
  | .sneReg x y => wordXYN 0x9 x y 0x0#4
  | .ldI nnn => wordNNN 0xA nnn
  | .jpV0 nnn => wordNNN 0xB nnn
  | .rnd x nn => wordXNN 0xC x nn
  | .drw x y n => wordXYN 0xD x y n
  | .skp x => wordXNN 0xE x 0x9E#8
  | .sknp x => wordXNN 0xE x 0xA1#8
  | .ldVxDt x => wordXNN 0xF x 0x07#8
  | .ldVxK x => wordXNN 0xF x 0x0A#8
  | .ldDtVx x => wordXNN 0xF x 0x15#8
  | .ldStVx x => wordXNN 0xF x 0x18#8
  | .addI x => wordXNN 0xF x 0x1E#8
  | .ldF x => wordXNN 0xF x 0x29#8
  | .ldB x => wordXNN 0xF x 0x33#8
  | .ldMemRegs x => wordXNN 0xF x 0x55#8
  | .ldRegsMem x => wordXNN 0xF x 0x65#8
  | .sys nnn => wordNNN 0x0 nnn
  | .nop5 x y n => wordXYN 0x5 x y n
  | .nop8 x y n => wordXYN 0x8 x y n
  | .nop9 x y n => wordXYN 0x9 x y n
  | .nopE x nn => wordXNN 0xE x nn
  | .nopF x nn => wordXNN 0xF x nn

/-- The two bytes of an instruction in memory order (R83). -/
def encodeBytes (i : Instr) : List Byte := [highByte (encode i), lowByte (encode i)]

end Sys2Proof
end

