-- ==== Sys2Proof/Machine/Memory.lean ====
section
/-! DEFINITION. The one memory of 4096 bytes (20_memory.md R80, R81): what it holds at reset, and reading and writing a byte.
Memory is the list of the bytes that differ from reset, strictly rising by address (log entry 24). -/

namespace Sys2Proof.Machine

/-- The highest address, 0xFFF (R80). -/
def memTop : Nat := 0xFFF

/-- Glyphs 0 to 3 of the font (R47). -/
def fontRows0 : List Byte :=
  [0xF0, 0x90, 0x90, 0x90, 0xF0] ++ [0x20, 0x60, 0x20, 0x20, 0x70]
    ++ [0xF0, 0x10, 0xF0, 0x80, 0xF0] ++ [0xF0, 0x10, 0xF0, 0x10, 0xF0]

/-- Glyphs 4 to 7 of the font (R47). -/
def fontRows4 : List Byte :=
  [0x90, 0x90, 0xF0, 0x10, 0x10] ++ [0xF0, 0x80, 0xF0, 0x10, 0xF0]
    ++ [0xF0, 0x80, 0xF0, 0x90, 0xF0] ++ [0xF0, 0x10, 0x20, 0x40, 0x40]

/-- Glyphs 8 to B of the font (R47). -/
def fontRows8 : List Byte :=
  [0xF0, 0x90, 0xF0, 0x90, 0xF0] ++ [0xF0, 0x90, 0xF0, 0x10, 0xF0]
    ++ [0xF0, 0x90, 0xF0, 0x90, 0x90] ++ [0xE0, 0x90, 0xE0, 0x90, 0xE0]

/-- Glyphs C to F of the font (R47). -/
def fontRowsC : List Byte :=
  [0xF0, 0x80, 0x80, 0x80, 0xF0] ++ [0xE0, 0x90, 0x90, 0x90, 0xE0]
    ++ [0xF0, 0x80, 0xF0, 0x80, 0xF0] ++ [0xF0, 0x80, 0xF0, 0x80, 0x80]

/-- `FONT`, the 80 bytes at 0x000-0x04F after construction (R47). PRESUMED by the spec itself (general knowledge), unsafe for a
claim about glyph pixels (log entry 5). -/
def font : List Byte := fontRows0 ++ fontRows4 ++ fontRows8 ++ fontRowsC

/-- The byte that construction leaves at an address: the font, then zero (R46, R300). An address no entry lists reads as this. -/
def resetByte (a : Nat) : Byte := font.getD a 0

/-- The bytes that differ from reset, by rising address. -/
abbrev Memory := List Host.Cell

/-- The byte at an address (R14 `MemRead`). -/
def Memory.read : Memory → Nat → Byte
  | [], a => resetByte a
  | (b, v) :: m, a => if b = a then v else Memory.read m a

/-- The memory without an entry for `a`. -/
def Memory.erase (m : Memory) (a : Nat) : Memory := m.filter (fun c => c.1 != a)

/-- Put an entry before the first one with a higher address. -/
def Memory.insert : Memory → Nat → Byte → Memory
  | [], a, v => [(a, v)]
  | c :: m, a, v => if a < c.1 then (a, v) :: c :: m else c :: Memory.insert m a v

/-- Write a byte (R14 `MemWrite`). The entry goes where the value is the one an unlisted address reads as. -/
def Memory.write (m : Memory) (a : Nat) (v : Byte) : Memory :=
  if v = resetByte a then Memory.erase m a else Memory.insert (Memory.erase m a) a v

/-- The canonical form: addresses strictly rising, all inside memory, and no entry equal to the reset byte. -/
abbrev Memory.wf (m : Memory) : Prop :=
  m.Pairwise (fun c d => c.1 < d.1) ∧ ∀ c ∈ m, c.1 ≤ memTop ∧ c.2 ≠ resetByte c.1

end Sys2Proof.Machine
end

