-- ==== Sys2Proof/Machine/State.lean ====
section
/-! DEFINITION. The state of the core (10_state.md, the record at its head, and R46), the reasons a step can stop, and reset. -/

namespace Sys2Proof.Machine

/-- The display, 32 rows of 64 pixels, row-major (R39). -/
abbrev Display := Vector (Vector Bool 64) 32

/-- Every pixel off (R46, R231). -/
def Display.off : Display := Vector.replicate 32 (Vector.replicate 64 false)

/-- The whole state of the core. -/
structure State where
  /-- the general registers V0 to VF (R30, R31) -/
  v : Vector Byte 16
  /-- the index register `I` (R36) -/
  index : Word
  /-- the program counter (R33) -/
  pc : Word
  /-- the call stack, newest entry first; its length is `SP` (R37) -/
  stack : List Word
  /-- the delay timer `DT` (R38) -/
  dt : Byte
  /-- the audio timer `ST` (R38) -/
  st : Byte
  /-- the pixels (R39) -/
  disp : Display
  /-- the display dirty flag (R40) -/
  dirty : Bool
  /-- the key states, true meaning pressed (R41) -/
  key : Vector Bool 16
  /-- the key-wait state: false is Idle, true is Seeking (R42, R255) -/
  seeking : Bool
  /-- the captured key (R42) -/
  captured : Option KeyIx
  /-- the memory (R80) -/
  mem : Memory
  /-- the MODEL's own field: the number of bytes CXNN has drawn, which picks the next free byte (R195; log entry 2) -/
  draws : Nat
deriving DecidableEq, Repr

/-- `SP`, the number of entries on the call stack (R37). -/
def State.sp (s : State) : Nat := s.stack.length

/-- The entry the spec writes `stack[i]`, counted from the oldest (R37); none from `SP` on. -/
def State.stackEntry (s : State) (i : Nat) : Option Word := s.stack.reverse[i]?

/-- The faults, the values an operation returns to the host (60_exceptions.md R270). A returned fault ends a run (R147); the state
the operation leaves is `State.faultLeaves` (R274). -/
inductive Fault where
  /-- Raised by the fetch at `pc` above 0xFFE (R141), and by DXYN, FX33, FX55 and FX65 when an address they would access lies
  above 0xFFF (R84, R271). Safe: the model stops where the spec says the core returns this fault. -/
  | outOfBounds
  /-- Raised by 00EE with an empty call stack (R161, R272). Safe, as above. -/
  | stackUnderflow
  /-- Raised by 2NNN with a full call stack (R163, R273). Safe: a core with a deeper stack goes on (log entry 4). -/
  | stackOverflow
  /-- Raised by the host's `load` of more than 3584 bytes (R275, R302), never by a step. Safe: the load has no effect. -/
  | romTooLarge
deriving DecidableEq, Repr

/-- The refusals. The spec gives every word an effect (R121), so no meaning refuses. -/
inductive Refusal where
  /-- An instruction that has no meaning in the model, raised by its arm of `exec` alone. Safe: nothing can be proved of it. No
  arm raises it now. -/
  | notModelled (mnemonic : String)
deriving DecidableEq, Repr

/-- The state after construction: everything zero, off, released or empty, the font in memory, `pc` at 0x200 (R46, R300). `mem`
lists nothing, since an unlisted address reads as its reset byte. `draws` 0 is a DESIGN CHOICE (log entry 2). -/
def State.reset : State where
  v := Vector.replicate 16 0
  index := 0
  pc := 0x200
  stack := []
  dt := 0
  st := 0
  disp := Display.off
  dirty := false
  key := Vector.replicate 16 false
  seeking := false
  captured := none
  mem := []
  draws := 0

end Sys2Proof.Machine
end

