-- ==== Sys2Proof/Machine/Ops.lean ====
section
/-! DEFINITION. The named operations over registers, memory, the program counter, the call stack and the display; fetching a word;
raising a fault and the state a fault leaves. -/

namespace Sys2Proof.Machine

/-- What a step, an instruction or a host operation that may fail answers. -/
abbrev Result := Host.Outcome State Fault Refusal

/-! ### Registers -/

/-- `V[r]` (R13, R30). No register is hard-wired. -/
def State.getV (s : State) (r : RegIx) : Byte := s.v[r]

/-- `V[r] <- b` (R13, R30). -/
def State.setV (s : State) (r : RegIx) (b : Byte) : State := { s with v := s.v.set r b }

/-! ### Memory -/

/-- `MemRead(a, 1)` (R14). Every rule checks its addresses first (R84), so `a` is at most 0xFFF. -/
def State.readByte (s : State) (a : Nat) : Byte := s.mem.read a

/-- `MemWrite(a, 1, b)` (R14). -/
def State.writeByte (s : State) (a : Nat) (b : Byte) : State := { s with mem := s.mem.write a b }

/-- Write bytes at ascending addresses from `a` on, in order (R83, R302). -/
def State.writeBytes (s : State) (a : Nat) : List Byte → State
  | [] => s
  | b :: bs => (s.writeByte a b).writeBytes (a + 1) bs

/-- `for i in 0 .. X: MemWrite(base + i, 1, V[i])`, over a list of register numbers (R214). -/
def State.storeRegs (s : State) (base : Nat) : List RegIx → State
  | [] => s
  | r :: rs => (s.writeByte (base + r.val) (s.getV r)).storeRegs base rs

/-- `for i in 0 .. X: V[i] <- MemRead(base + i, 1)`, over a list of register numbers (R215). -/
def State.loadRegs (s : State) (base : Nat) : List RegIx → State
  | [] => s
  | r :: rs => (s.setV r (s.readByte (base + r.val))).loadRegs base rs

/-- Does an access to `count` bytes from `base` on reach an address above 0xFFF? Natural numbers, no wrap (R84). -/
def outOfRange (base count : Nat) : Bool := decide (0 < count ∧ memTop < base + count - 1)

/-! ### Program counter and fetch -/

/-- The advance of `pc` past the fetched word, modulo 0x10000 (R34, R142); a taken skip is one more of it (R160). -/
def State.advance (s : State) : State := { s with pc := s.pc + 2 }

/-- The rewind of `pc` to the waiting FX0A (R254). -/
def State.rewind (s : State) : State := { s with pc := s.pc - 2 }

/-- `pc <- t` (R13). -/
def State.jump (s : State) (t : Word) : State := { s with pc := t }

/-- `if c: pc <- pc + 2` (R160). -/
def State.skipIf (s : State) (c : Bool) : State := if c then s.advance else s

/-- The fetched word, big-endian at `pc`; none where `pc + 1` exceeds memory (R83, R141). -/
def State.fetch (s : State) : Option Word :=
  if memTop < s.pc.toNat + 1 then none
  else some (wordOfBytes (s.readByte s.pc.toNat) (s.readByte (s.pc.toNat + 1)))

/-- The address a word is placed at, to be the next one fetched: `pc`, or 0x200 where the fetch at `pc` would fault (log 21). -/
def State.placePc (s : State) : Word := if memTop < s.pc.toNat + 1 then 0x200 else s.pc

/-- Lay a word out big-endian where the next fetch reads it. -/
def State.placeWord (s : State) (w : Word) : State :=
  ((s.jump s.placePc).writeByte s.placePc.toNat (highByte w)).writeByte (s.placePc.toNat + 1) (lowByte w)

/-! ### Call stack -/

/-- Push a return address (R163). -/
def State.push (s : State) (t : Word) : State := { s with stack := t :: s.stack }

/-! ### Display -/

/-- The pixel at column `x`, row `y`; off outside the grid, where nothing is ever read (R39). -/
def Display.pixel (d : Display) (x y : Nat) : Bool :=
  if h : x < 64 ∧ y < 32 then (d[y]'h.2)[x]'h.1 else false

/-- Set the pixel at column `x`, row `y`; nothing outside the grid (R39). -/
def Display.setPixel (d : Display) (x y : Nat) (b : Bool) : Display :=
  if h : x < 64 ∧ y < 32 then d.set y ((d[y]'h.2).set x b h.1) h.2 else d

/-- The display while a sprite is drawn, and whether a set bit has met a pixel that was on (R232). -/
structure Canvas where
  disp : Display
  hit : Bool
deriving DecidableEq, Repr

/-- XOR one set sprite bit onto the pixel at `x`, `y`: if on, turn it off and note the collision; if off, turn it on (R232). -/
def Canvas.flip (c : Canvas) (x y : Nat) : Canvas :=
  if c.disp.pixel x y then { disp := c.disp.setPixel x y false, hit := true }
  else { c with disp := c.disp.setPixel x y true }

/-- Draw the bits of one sprite byte whose places are listed: bit 7 - `c` at column `ox` + `c`, nothing past column 63 (R230,
R232). -/
def Canvas.drawBits (b : Byte) (ox y : Nat) : List Nat → Canvas → Canvas
  | [], k => k
  | c :: cs, k => Canvas.drawBits b ox y cs (if ox + c < 64 ∧ b.getLsbD (7 - c) then k.flip (ox + c) y else k)

/-- The places of a sprite byte's bits, leftmost first: "most-significant bit first" (R230). -/
def spriteColumns : List Nat := [0, 1, 2, 3, 4, 5, 6, 7]

/-- Draw sprite bytes on successive rows from row `y` on (R232). -/
def Canvas.drawRows (ox y : Nat) : List Byte → Canvas → Canvas
  | [], k => k
  | b :: bs, k => Canvas.drawRows ox (y + 1) bs (Canvas.drawBits b ox y spriteColumns k)

/-- The `count` bytes at ascending addresses from `a` on. -/
def State.readBytes (s : State) (a : Nat) : Nat → List Byte
  | 0 => []
  | n + 1 => s.readByte a :: s.readBytes (a + 1) n

/-! ### Faults -/

/-- Raise a fault: the operation ends and returns it to the host (R15, R270). There is no entry sequence, saved register, vector,
or return from it (R278). -/
def raise (f : Fault) : Result := .fault f

/-- The state a step that returns a fault leaves: a fetch fault changes nothing; an instruction's fault leaves `pc` advanced past
it and nothing else (R274, D13). A later step runs on this state by the ordinary rules. -/
def State.faultLeaves (s : State) : State :=
  match s.fetch with
  | none => s
  | some _ => s.advance

end Sys2Proof.Machine
end

