-- ==== Sys2Proof/Machine/Flags.lean ====
section
/-! DEFINITION. The flag outcomes, all of them values of VF (10_state.md R35, 42_alu.md R181, R182). -/

namespace Sys2Proof.Machine

/-- A flag value: 1 where its condition holds, else 0 (R182). -/
def flagByte (c : Bool) : Byte := if c then 1 else 0

/-- Carry of an addition: the exact sum passes 255 (R182, R189). -/
def carryFlag (a b : Byte) : Byte := flagByte (decide (255 < a.toNat + b.toNat))

/-- Not-borrow of `a - b`: `a >= b` (R182, R190, R192). -/
def notBorrowFlag (a b : Byte) : Byte := flagByte (decide (b.toNat ≤ a.toNat))

/-- The bit a right shift evicts: bit 0 (R191). -/
def evictedLow (a : Byte) : Byte := flagByte (a.getLsbD 0)

/-- The bit a left shift evicts: bit 7 (R193). -/
def evictedHigh (a : Byte) : Byte := flagByte (a.getLsbD 7)

/-- `V[X] <- result`, then `V[15] <- flag`: with `X` = 0xF the flag stays (R181, D3). -/
def State.setWithFlag (s : State) (x : RegIx) (result flag : Byte) : State := (s.setV x result).setV vF flag

/-- FX1E's flag: VF <- 1 when the sum is 0x1000 or more, otherwise VF is not written (R211, D6). -/
def State.flagIndexOverflow (s : State) (sum : Nat) : State := if 0x1000 ≤ sum then s.setV vF 1 else s

end Sys2Proof.Machine
end

