-- ==== Sys2Proof/Config.lean ====
section
/-! DEFINITION. What the spec leaves to an implementation or to chance (00_scope.md R8): the types of the parameters, and the two
values that nothing in the model fixes. The values of the DECIDED parameters stand in Machine/Params.lean. -/

namespace Sys2Proof

/-- `FX1E_INDEX_MODE` (R8, R211): what FX1E stores in `I` when the sum passes 0xFFF. -/
inductive IndexMode where
  /-- the sum modulo 0x10000 -/
  | wrap16
  /-- the sum modulo 0x1000 -/
  | mask12
deriving DecidableEq, Repr, Inhabited

/-- `SHIFT_SOURCE` (R8, R191, R193): which register 8XY6 and 8XYE shift. -/
inductive ShiftSource where
  | vx
  | vy
deriving DecidableEq, Repr, Inhabited

/-- `FONT_WRITE_POLICY` (R8, R87): what an instruction store to 0x000-0x04F does. -/
inductive FontWritePolicy where
  /-- the store takes effect -/
  | ram
  /-- the store raises `OutOfBounds` -/
  | fault
deriving DecidableEq, Repr, Inhabited

/-- `FX1E_INDEX_MODE`, OPEN in the spec (R8, R211, 92_eei_decisions.md D5): no value, so every proof holds for both modes.
DESIGN CHOICE: an uninterpreted constant, safe (log entry 1). -/
opaque Config.fx1eIndexMode : IndexMode

/-- The bytes that CXNN draws (R8 `rand`, R195, D22): the `k`-th CXNN of a run takes `Config.rand k`. No value and no law, so
every proof holds for every draw. DESIGN CHOICE: an uninterpreted constant applied to a counter, safe (log entry 2). -/
opaque Config.rand : Nat → Byte

end Sys2Proof
end

