-- ==== Sys2Proof/Machine/Params.lean ====
section
/-! DEFINITION. The values of the parameters the machine runs with (00_scope.md R8). Every operation that depends on one takes it as
an argument; the meanings pass these. -/

namespace Sys2Proof.Machine

/-- `STACK_DEPTH` = 16 (R8, R37, D14). UNVERIFIED: the spec's own choice of the stated minimum; safe (log entry 4). -/
def stackDepth : Nat := 16

/-- `SHIFT_SOURCE` = `VX` (R8, R191, D2). UNVERIFIED: the spec's own choice; unsafe where `Y` differs from `X` (log entry 3). -/
def shiftSource : ShiftSource := .vx

/-- `FONT_WRITE_POLICY` = `ram` (R8, R87, D11, C4). UNVERIFIED: the spec's own choice; unsafe (log entry 6). -/
def fontWritePolicy : FontWritePolicy := .ram

/-- `FX1E_INDEX_MODE`, left open (R8, R211, D5): the constant that has no value; safe (log entry 1). -/
def indexMode : IndexMode := Config.fx1eIndexMode

end Sys2Proof.Machine
end

