-- ==== Sys2Proof/Machine/Operands.lean ====
section
/-! DEFINITION. The operand forms (30_encoding.md R112, 43_index_memory.md, 44_display.md, 45_input_timer.md). -/

namespace Sys2Proof.Machine

/-- `zext_16(NNN)` (R112). -/
def addrWord (nnn : Addr) : Word := nnn.setWidth 16

/-- All register numbers, V0 first. -/
def allRegs : List RegIx := [0, 1, 2, 3, 4, 5, 6, 7] ++ [8, 9, 10, 11, 12, 13, 14, 15]

/-- The block `V[0..X]`, inclusive, in ascending order (R112, R214, R215). -/
def regBlock (x : RegIx) : List RegIx := allRegs.filter (fun r => r ≤ x)

/-- The register 8XY6 and 8XYE shift (R191, R193). -/
def shiftOperand (src : ShiftSource) (x y : RegIx) : RegIx :=
  match src with
  | .vx => x
  | .vy => y

/-- `pressed(v)`: a value above 15 names no key, and so none that is pressed (R250, D9). -/
def State.pressed (s : State) (b : Byte) : Bool :=
  if h : b.toNat < 16 then s.key[b.toNat] else false

/-- Does an instruction store from `base` on raise `OutOfBounds` by `FONT_WRITE_POLICY` (R87, R213, R214)? -/
def fontRefuses (p : FontWritePolicy) (base : Nat) : Bool :=
  match p with
  | .ram => false
  | .fault => decide (base < 0x050)

/-- Does a store of `count` bytes from `base` on raise `OutOfBounds` (R84, R87)? -/
def storeFaults (p : FontWritePolicy) (base count : Nat) : Bool := outOfRange base count || fontRefuses p base

/-- The value `I` takes from a sum that passes 0xFFF, by `FX1E_INDEX_MODE` (R211, D5). -/
def wrapIndex (m : IndexMode) (sum : Nat) : Word :=
  match m with
  | .wrap16 => BitVec.ofNat 16 (sum % 0x10000)
  | .mask12 => BitVec.ofNat 16 (sum % 0x1000)

/-- The value FX1E stores in `I` (R211). Below 0x1000 both modes store the sum itself. -/
def indexSum (m : IndexMode) (sum : Nat) : Word := if sum < 0x1000 then BitVec.ofNat 16 sum else wrapIndex m sum

/-- The address of a font glyph, `(v & 0xF) * 5` (R212). -/
def glyphAddr (b : Byte) : Word := (b &&& 0x0F#8).setWidth 16 * 5#16

/-- The decimal digits of a byte: hundreds, tens, ones (R213, C3). -/
def bcdDigits (b : Byte) : List Byte :=
  [BitVec.ofNat 8 (b.toNat / 100), BitVec.ofNat 8 (b.toNat / 10 % 10), BitVec.ofNat 8 (b.toNat % 10)]

/-- The column of a sprite's origin, `vx & 63` (R232). -/
def originX (b : Byte) : Nat := (b &&& 63#8).toNat

/-- The row of a sprite's origin, `vy & 31` (R232). -/
def originY (b : Byte) : Nat := (b &&& 31#8).toNat

/-- The rows of a sprite that are read and drawn: `min(N, 32 - oy)` (R232, D16). -/
def spriteRows (n : Nibble) (oy : Nat) : Nat := min n.toNat (32 - oy)

end Sys2Proof.Machine
end

