-- ==== Sys2Proof/Machine/Alu.lean ====
section
/-! DEFINITION. Register loads and the ALU (42_alu.md R180 to R195). Operands are read before any write (R180); nothing here
changes `pc` or faults. -/

namespace Sys2Proof.Machine

/-- 6XNN: `V[X] <- NN` (R183). -/
def execLdImm (x : RegIx) (nn : Byte) (s : State) : Result := .next (s.setV x nn)

/-- 7XNN: `V[X] <- (V[X] + NN) mod 256`, no flag (R184). -/
def execAddImm (x : RegIx) (nn : Byte) (s : State) : Result := .next (s.setV x (s.getV x + nn))

/-- 8XY0: `V[X] <- V[Y]` (R185). -/
def execLdReg (x y : RegIx) (s : State) : Result := .next (s.setV x (s.getV y))

/-- 8XY1: `V[X] <- V[X] | V[Y]`, no flag (R186, D4). -/
def execOrReg (x y : RegIx) (s : State) : Result := .next (s.setV x (s.getV x ||| s.getV y))

/-- 8XY2: `V[X] <- V[X] & V[Y]`, no flag (R187, D4). -/
def execAndReg (x y : RegIx) (s : State) : Result := .next (s.setV x (s.getV x &&& s.getV y))

/-- 8XY3: `V[X] <- V[X] ^ V[Y]`, no flag (R188, D4). -/
def execXorReg (x y : RegIx) (s : State) : Result := .next (s.setV x (s.getV x ^^^ s.getV y))

/-- 8XY4: add modulo 256, VF = carry (R189). -/
def execAddReg (x y : RegIx) (s : State) : Result :=
  .next (s.setWithFlag x (s.getV x + s.getV y) (carryFlag (s.getV x) (s.getV y)))

/-- 8XY5: `V[X] - V[Y]` modulo 256, VF = no borrow (R190). -/
def execSub (x y : RegIx) (s : State) : Result :=
  .next (s.setWithFlag x (s.getV x - s.getV y) (notBorrowFlag (s.getV x) (s.getV y)))

/-- Shift register `r` right by one into `V[X]`, VF = the evicted bit (R191). -/
def shiftRightInto (x r : RegIx) (s : State) : State := s.setWithFlag x (s.getV r >>> 1) (evictedLow (s.getV r))

/-- Shift register `r` left by one into `V[X]`, VF = the evicted bit (R193). -/
def shiftLeftInto (x r : RegIx) (s : State) : State := s.setWithFlag x (s.getV r <<< 1) (evictedHigh (s.getV r))

/-- 8XY6: logical shift right by one of the register `SHIFT_SOURCE` names (R191, D2). -/
def execShr (x y : RegIx) (s : State) : Result := .next (shiftRightInto x (shiftOperand shiftSource x y) s)

/-- 8XY7: `V[Y] - V[X]` modulo 256, VF = no borrow (R192). -/
def execSubn (x y : RegIx) (s : State) : Result :=
  .next (s.setWithFlag x (s.getV y - s.getV x) (notBorrowFlag (s.getV y) (s.getV x)))

/-- 8XYE: logical shift left by one of the register `SHIFT_SOURCE` names (R193, D2). -/
def execShl (x y : RegIx) (s : State) : Result := .next (shiftLeftInto x (shiftOperand shiftSource x y) s)

/-- Take the next free byte and step the draw counter (R195, D22; log entry 2). -/
def State.draw (s : State) : Byte × State := (Config.rand s.draws, { s with draws := s.draws + 1 })

/-- CXNN: `V[X] <- rand() & NN` (R195). -/
def execRnd (x : RegIx) (nn : Byte) (s : State) : Result := .next (s.draw.2.setV x (s.draw.1 &&& nn))

end Sys2Proof.Machine
end

