-- ==== Sys2Proof/Machine/Draw.lean ====
section
/-! DEFINITION. The display instructions (44_display.md R230 to R234). -/

namespace Sys2Proof.Machine

/-- 00E0: every pixel off, `dirty` set (R231). -/
def execCls (s : State) : Result := .next { s with disp := Display.off, dirty := true }

/-- Draw sprite bytes from the origin `ox`, `oy` on: `dirty` set, VF reset and then set by a collision (R232). -/
def State.drawSprite (s : State) (ox oy : Nat) (rows : List Byte) : State :=
  let k := Canvas.drawRows ox oy rows { disp := s.disp, hit := false }
  ({ s with disp := k.disp, dirty := true }).setV vF (flagByte k.hit)

/-- DXYN: draw `N` rows of the sprite at `I`; the origin is masked, pixels past the edges are dropped, rows below the display are
neither read nor drawn; `OutOfBounds` where a row to be drawn lies above 0xFFF (R232, R233). -/
def execDrw (x y : RegIx) (n : Nibble) (s : State) : Result :=
  if outOfRange s.index.toNat (spriteRows n (originY (s.getV y))) then raise .outOfBounds
  else .next (s.drawSprite (originX (s.getV x)) (originY (s.getV y))
    (s.readBytes s.index.toNat (spriteRows n (originY (s.getV y)))))

end Sys2Proof.Machine
end

