-- ==== Sys2Proof/Machine/Flow.lean ====
section
/-! DEFINITION. Control transfer and skips (41_flow.md R160 to R168). Each meaning runs on the state the fetch left: `pc` is the
instruction's address plus 2 (R142). -/

namespace Sys2Proof.Machine

/-- 00EE: pop the call stack into `pc`; `StackUnderflow` where it is empty (R161). -/
def execRet (s : State) : Result :=
  match s.stack with
  | [] => raise .stackUnderflow
  | t :: rest => .next { s with stack := rest, pc := t }

/-- 1NNN: `pc <- NNN` (R162). -/
def execJp (nnn : Addr) (s : State) : Result := .next (s.jump (addrWord nnn))

/-- A call on a stack of the given capacity: `StackOverflow` where it is full, else push `pc` and jump (R163). -/
def callWith (depth : Nat) (nnn : Addr) (s : State) : Result :=
  if depth ≤ s.sp then raise .stackOverflow else .next ((s.push s.pc).jump (addrWord nnn))

/-- 2NNN: call (R163). -/
def execCall (nnn : Addr) (s : State) : Result := callWith stackDepth nnn s

/-- 3XNN: skip if `V[X] == NN` (R164). -/
def execSeImm (x : RegIx) (nn : Byte) (s : State) : Result := .next (s.skipIf (s.getV x == nn))

/-- 4XNN: skip if `V[X] != NN` (R165). -/
def execSneImm (x : RegIx) (nn : Byte) (s : State) : Result := .next (s.skipIf (s.getV x != nn))

/-- 5XY0: skip if `V[X] == V[Y]` (R166). -/
def execSeReg (x y : RegIx) (s : State) : Result := .next (s.skipIf (s.getV x == s.getV y))

/-- 9XY0: skip if `V[X] != V[Y]` (R167). -/
def execSneReg (x y : RegIx) (s : State) : Result := .next (s.skipIf (s.getV x != s.getV y))

/-- BNNN: `pc <- NNN + V[0]`, not masked to 12 bits (R168, D25). -/
def execJpV0 (nnn : Addr) (s : State) : Result := .next (s.jump (addrWord nnn + (s.getV 0).setWidth 16))

end Sys2Proof.Machine
end

