-- ==== Sys2Proof/Machine/IndexMem.lean ====
section
/-! DEFINITION. The index register and the memory instructions (43_index_memory.md R210 to R215). Each memory instruction checks all
its addresses before it writes anything (R84). -/

namespace Sys2Proof.Machine

/-- `I <- w` (R13, R36). -/
def State.setIndex (s : State) (w : Word) : State := { s with index := w }

/-- ANNN: `I <- NNN` (R210). -/
def execLdI (nnn : Addr) (s : State) : Result := .next (s.setIndex (addrWord nnn))

/-- FX1E under a given `FX1E_INDEX_MODE`: the sum is a natural number; `I`, then VF (R211). -/
def addIndexWith (m : IndexMode) (x : RegIx) (s : State) : State :=
  (s.setIndex (indexSum m (s.index.toNat + (s.getV x).toNat))).flagIndexOverflow (s.index.toNat + (s.getV x).toNat)

/-- FX1E: add `V[X]` to `I` (R211). -/
def execAddI (x : RegIx) (s : State) : Result := .next (addIndexWith indexMode x s)

/-- FX29: `I <- (V[X] & 0xF) * 5` (R212). -/
def execLdF (x : RegIx) (s : State) : Result := .next (s.setIndex (glyphAddr (s.getV x)))

/-- FX33 under a given `FONT_WRITE_POLICY`: hundreds, tens and ones at `I`, `I + 1`, `I + 2` (R213). -/
def storeBcdWith (p : FontWritePolicy) (x : RegIx) (s : State) : Result :=
  if storeFaults p s.index.toNat 3 then raise .outOfBounds
  else .next (s.writeBytes s.index.toNat (bcdDigits (s.getV x)))

/-- FX33: store the decimal digits of `V[X]` (R213). -/
def execLdB (x : RegIx) (s : State) : Result := storeBcdWith fontWritePolicy x s

/-- FX55 under a given `FONT_WRITE_POLICY`: store `V[0..X]` from `I` on, then `I <- I + X + 1` (R214). -/
def storeBlockWith (p : FontWritePolicy) (x : RegIx) (s : State) : Result :=
  if storeFaults p s.index.toNat (x.val + 1) then raise .outOfBounds
  else .next ((s.storeRegs s.index.toNat (regBlock x)).setIndex (BitVec.ofNat 16 (s.index.toNat + x.val + 1)))

/-- FX55: store registers V0 to VX (R214). -/
def execLdMemRegs (x : RegIx) (s : State) : Result := storeBlockWith fontWritePolicy x s

/-- FX65: load `V[0..X]` from `I` on, then `I <- I + X + 1` (R215). -/
def execLdRegsMem (x : RegIx) (s : State) : Result :=
  if outOfRange s.index.toNat (x.val + 1) then raise .outOfBounds
  else .next ((s.loadRegs s.index.toNat (regBlock x)).setIndex (BitVec.ofNat 16 (s.index.toNat + x.val + 1)))

end Sys2Proof.Machine
end

