-- ==== Sys2Proof/Machine/Input.lean ====
section
/-! DEFINITION. The key and timer instructions and the key-wait state machine (45_input_timer.md R250 to R258). -/

namespace Sys2Proof.Machine

/-- EX9E: skip if the key `V[X]` is pressed (R251). -/
def execSkp (x : RegIx) (s : State) : Result := .next (s.skipIf (s.pressed (s.getV x)))

/-- EXA1: skip if the key `V[X]` is not pressed (R252). -/
def execSknp (x : RegIx) (s : State) : Result := .next (s.skipIf (!s.pressed (s.getV x)))

/-- FX07: `V[X] <- DT` (R253). -/
def execLdVxDt (x : RegIx) (s : State) : Result := .next (s.setV x s.dt)

/-- FX0A: with no captured key, seek and run this instruction again; with one, take it and go on (R254, R255, D12). -/
def execLdVxK (x : RegIx) (s : State) : Result :=
  match s.captured with
  | none => .next ({ s with seeking := true }).rewind
  | some k => .next (({ s with captured := none, seeking := false }).setV x (BitVec.ofNat 8 k.val))

/-- FX15: `DT <- V[X]` (R257). -/
def execLdDtVx (x : RegIx) (s : State) : Result := .next { s with dt := s.getV x }

/-- FX18: `ST <- V[X]` (R258). -/
def execLdStVx (x : RegIx) (s : State) : Result := .next { s with st := s.getV x }

end Sys2Proof.Machine
end

