-- ==== Sys2Proof/Machine/NoOps.lean ====
section
/-! DEFINITION. The no-op space (30_encoding.md R121, 40_step_cycle.md R145): the state is as the fetch left it. One definition per
fallback row of the opcode table. -/

namespace Sys2Proof.Machine

/-- The no-op: nothing changes after the fetch (R145). -/
def noOp (s : State) : Result := .next s

/-- 0NNN other than 00E0 and 00EE; it calls nothing (R114, R122). -/
def execSys (_nnn : Addr) (s : State) : Result := noOp s

/-- 5XYN with `N` not 0 (R116). -/
def execNop5 (_x _y : RegIx) (_n : Nibble) (s : State) : Result := noOp s

/-- 8XYN with `N` in 8, 9, A, B, C, D, F (R115). -/
def execNop8 (_x _y : RegIx) (_n : Nibble) (s : State) : Result := noOp s

/-- 9XYN with `N` not 0 (R116). -/
def execNop9 (_x _y : RegIx) (_n : Nibble) (s : State) : Result := noOp s

/-- EXNN with `NN` not 9E or A1 (R117). -/
def execNopE (_x : RegIx) (_nn : Byte) (s : State) : Result := noOp s

/-- FXNN with `NN` none of the nine listed (R118). -/
def execNopF (_x : RegIx) (_nn : Byte) (s : State) : Result := noOp s

end Sys2Proof.Machine
end

