-- ==== Sys2Proof/Machine/Step.lean ====
section
/-! DEFINITION. The step (40_step_cycle.md R140): fetch, advance `pc`, decode, execute. -/

namespace Sys2Proof.Machine

/-- One `step()` (R140): `OutOfBounds` where the fetch runs beyond memory (R141); else `pc` advances by 2 (R142) and the decoded
instruction executes (R143, R144). -/
def step (s : State) : Host.Outcome State Fault Refusal :=
  match s.fetch with
  | none => raise .outOfBounds
  | some w => exec (decode w) s.advance

/-- `s` with an instruction of the opcode table where the next step fetches it (log entry 21). It stands for the host's `load` of
that instruction (R302); where the fetch at `pc` would fault, `pc` becomes 0x200. -/
def State.withFetchWord (s : State) (nbits w : Nat) : State := s.placeWord (tableWord nbits w)

end Sys2Proof.Machine
end

