-- ==== Sys2Proof/Machine/HostOps.lean ====
section
/-! DEFINITION. The host's operations (60_exceptions.md R290 to R296, R281; 70_reset_and_hazards.md R300 to R302), each one atomic
transaction on the state (R86), in any order (R280). -/

namespace Sys2Proof.Machine

/-- The most bytes a program may have: 4096 - 0x200 (R275, R302). -/
def romMax : Nat := 3584

/-- `load(bytes)`: `RomTooLarge` and nothing written, or the bytes from 0x200 on and no other state (R302, D21). -/
def State.load (bytes : List Byte) (s : State) : Result :=
  if romMax < bytes.length then raise .romTooLarge else .next (s.writeBytes 0x200 bytes)

/-- One timer's decrement: by 1 if above 0 (R281). -/
def countDown (b : Byte) : Byte := if 0 < b.toNat then b - 1 else b

/-- `tick_timers()`: both timers, independently (R281). -/
def State.tickTimers (s : State) : State := { s with dt := countDown s.dt, st := countDown s.st }

/-- `set_key_state(k, p)`: `key[k] <- p` and nothing else (R291). -/
def State.setKeyState (k : KeyIx) (p : Bool) (s : State) : State := { s with key := s.key.set k p }

/-- `resolve_key(k)`: latched while seeking, ignored in Idle; a second call replaces the first (R292, D12). -/
def State.resolveKey (k : KeyIx) (s : State) : State := if s.seeking then { s with captured := some k } else s

/-- `clear_dirty()` (R294, D18). -/
def State.clearDirty (s : State) : State := { s with dirty := false }

/-- Construction: a new core in the reset state (R300). The model's draw counter goes on, so that no byte drawn by the new core
is a byte the old one drew (log entry 23). -/
def State.construct (s : State) : State := { State.reset with draws := s.draws }

/-- The operations of R290. A key argument is a 4-bit number (R291, D24). -/
inductive HostOp where
  | construct
  | load (bytes : List Byte)
  | step
  | tickTimers
  | setKeyState (k : KeyIx) (pressed : Bool)
  | resolveKey (k : KeyIx)
  | snapshot
  | clearDirty
  | readSeeking
deriving DecidableEq, Repr

/-- What an operation gives back to the host (R290). -/
inductive HostReply where
  /-- `Ok`, or no result -/
  | ok
  /-- the fault returned (R270) -/
  | fault (f : Fault)
  /-- a refusal of the model (none is reached) -/
  | refused (r : Refusal)
  /-- the pixel grid and the dirty flag (R293) -/
  | picture (disp : Display) (dirty : Bool)
  /-- the key-wait state (R295) -/
  | seeking (b : Bool)
deriving DecidableEq, Repr

/-- The state and reply after an operation that answers `r`, where a fault or refusal leaves the state `left`. -/
def replyOf (left : State) (r : Result) : State × HostReply :=
  match r with
  | .next t => (t, .ok)
  | .fault f => (left, .fault f)
  | .refused r => (left, .refused r)

/-- Perform one operation (R290). A faulting step leaves the state of R274; a failing load leaves the state as it was (R302). -/
def perform (op : HostOp) (s : State) : State × HostReply :=
  match op with
  | .construct => (s.construct, .ok)
  | .load bytes => replyOf s (s.load bytes)
  | .step => replyOf s.faultLeaves (Sys2Proof.Machine.step s)
  | .tickTimers => (s.tickTimers, .ok)
  | .setKeyState k p => (s.setKeyState k p, .ok)
  | .resolveKey k => (s.resolveKey k, .ok)
  | .snapshot => (s, .picture s.disp s.dirty)
  | .clearDirty => (s.clearDirty, .ok)
  | .readSeeking => (s, .seeking s.seeking)

/-- Perform operations in order, whatever each replies (R89, R280): the host may go on after a fault or a halt. Where a run ends is
`runToEnd`. -/
def runOps : List HostOp → State → State
  | [], s => s
  | op :: ops, s => runOps ops (perform op s).1

/-- The self-jump halt that ends a run: the word at `pc` is 1NNN at its own address, and no key-wait is under way (R146, R147). -/
def State.atHalt (s : State) : Bool :=
  match s.fetch with
  | none => false
  | some w => !s.seeking && (match decode w with | .jp nnn => addrWord nnn == s.pc | _ => false)

/-! ### Runs and their end (R147, D26) -/

/-- Why a run ends (R147). -/
inductive RunEnd where
  /-- a `step` returned this fault -/
  | fault (f : Fault)
  /-- a state whose next instruction is a jump to its own address, with `seeking` = 0 -/
  | halt
  /-- the host stopped: it issues no further operation -/
  | hostStopped
  /-- a `step` of the model refused (none does) -/
  | refused (r : Refusal)
deriving DecidableEq, Repr

/-- A run that has ended: its last state, why it ended, and the operations the host was still to issue. -/
structure EndedRun where
  last : State
  ending : RunEnd
  rest : List HostOp
deriving DecidableEq, Repr

/-- The end that an operation's reply brings: a fault that `step` returns, and no other reply. `RomTooLarge`, the fault of `load`,
ends no run (R147). -/
def endOf (op : HostOp) (reply : HostReply) : Option RunEnd :=
  match op, reply with
  | .step, .fault f => some (.fault f)
  | .step, .refused r => some (.refused r)
  | _, _ => none

/-- The run in which the host issues these operations and then stops: it ends at the first of a faulting `step`, a state at the
self-jump halt, and the host stopping (R147). What the host does after the end is `runOps` of `rest` from `last`: a fault does not
stop the core. -/
def runToEnd : List HostOp → State → EndedRun
  | [], s => { last := s, ending := if s.atHalt then .halt else .hostStopped, rest := [] }
  | op :: ops, s =>
    if s.atHalt then { last := s, ending := .halt, rest := op :: ops }
    else match endOf op (perform op s).2 with
      | some e => { last := (perform op s).1, ending := e, rest := ops }
      | none => runToEnd ops (perform op s).1

end Sys2Proof.Machine
end

