-- ==== Sys2Proof/Safety.lean ====
section
/-! DEFINITION. The terms claims are stated in: the parts of the state and what a step may change, the invariants, and the pixels a
sprite covers. -/

namespace Sys2Proof.Machine

/-- A part of the state, as a program or the host can name it (10_state.md). -/
inductive Part where
  | reg (r : RegIx)
  | index
  | pc
  | stack
  | dt
  | st
  | pixel (x y : Nat)
  | dirty
  | key (k : KeyIx)
  | seeking
  | captured
  | byte (a : Nat)
  | draws
deriving DecidableEq, Repr

/-- Does the part hold in `t` what it holds in `s`? -/
def Part.same (p : Part) (s t : State) : Prop :=
  match p with
  | .reg r => t.getV r = s.getV r
  | .index => t.index = s.index
  | .pc => t.pc = s.pc
  | .stack => t.stack = s.stack
  | .dt => t.dt = s.dt
  | .st => t.st = s.st
  | .pixel x y => t.disp.pixel x y = s.disp.pixel x y
  | .dirty => t.dirty = s.dirty
  | .key k => t.key[k] = s.key[k]
  | .seeking => t.seeking = s.seeking
  | .captured => t.captured = s.captured
  | .byte a => t.readByte a = s.readByte a
  | .draws => t.draws = s.draws

/-- From `s` to `t` nothing changes but the parts in `w`: the frame of an operation. -/
def ChangesOnly (w : Part → Prop) (s t : State) : Prop := ∀ p, ¬ w p → p.same s t

/-- Is the part one of the bytes from `a` on, `n` of them? -/
def Part.isByteOf (p : Part) (a n : Nat) : Prop := ∃ k, k < n ∧ p = .byte (a + k)

/-- Is the part a pixel? -/
def Part.isPixel (p : Part) : Prop := ∃ x y, p = .pixel x y

/-- The parts an instruction may write: 10_state.md R32 (registers), R33 (`pc`, besides the fetch's own advance), R35 (VF), R36 to
R42 (the other state), 20_memory.md R82 (the bytes stored to, at the addresses computed from `I`). -/
def mayWrite (i : Instr) (s : State) (p : Part) : Prop :=
  match i with
  | .cls => p = .dirty ∨ p.isPixel
  | .ret | .call _ => p = .pc ∨ p = .stack
  | .jp _ | .jpV0 _ | .seImm _ _ | .sneImm _ _ | .seReg _ _ | .sneReg _ _ | .skp _ | .sknp _ => p = .pc
  | .ldImm x _ | .addImm x _ | .ldReg x _ | .orReg x _ | .andReg x _ | .xorReg x _ | .ldVxDt x => p = .reg x
  | .addReg x _ | .sub x _ | .shr x _ | .subn x _ | .shl x _ => p = .reg x ∨ p = .reg vF
  | .rnd x _ => p = .reg x ∨ p = .draws
  | .ldI _ | .ldF _ => p = .index
  | .addI _ => p = .index ∨ p = .reg vF
  | .drw _ _ _ => p = .reg vF ∨ p = .dirty ∨ p.isPixel
  | .ldVxK x => p = .reg x ∨ p = .pc ∨ p = .seeking ∨ p = .captured
  | .ldDtVx _ => p = .dt
  | .ldStVx _ => p = .st
  | .ldB _ => p.isByteOf s.index.toNat 3
  | .ldMemRegs x => p = .index ∨ p.isByteOf s.index.toNat (x.val + 1)
  | .ldRegsMem x => p = .index ∨ ∃ r : RegIx, r ≤ x ∧ p = .reg r
  | .sys _ | .nop5 _ _ _ | .nop8 _ _ _ | .nop9 _ _ _ | .nopE _ _ | .nopF _ _ => False

/-- Is the pixel at column `px`, row `py` under a set bit of the sprite that DXYN draws from `s` (R230, R232)? The sprite's origin is
(`V[X]` & 63, `V[Y]` & 31); row `r` of it is the byte at `I + r`, bit 7 leftmost; rows below the display are not drawn. -/
def spriteLit (s : State) (x y : RegIx) (n : Nibble) (px py : Nat) : Prop :=
  (s.getV y).toNat % 32 ≤ py ∧ py - (s.getV y).toNat % 32 < n.toNat ∧
  (s.getV x).toNat % 64 ≤ px ∧ px - (s.getV x).toNat % 64 < 8 ∧
  (s.readByte (s.index.toNat + (py - (s.getV y).toNat % 32))).getLsbD (7 - (px - (s.getV x).toNat % 64)) = true

/-- The bounds that hold of the call stack and of `pc`: the stack is within its capacity (R37), each return address is at most
0x1000 (R142, R163), and `pc` is at most 0x10FE, so that no write of it wraps (R34). -/
def BoundsInv (s : State) : Prop :=
  s.sp ≤ stackDepth ∧ (∀ t ∈ s.stack, t.toNat ≤ 0x1000) ∧ s.pc.toNat ≤ 0x10FE

/-- The invariant of the key-wait state: a captured key only while seeking; while seeking, the word at `pc` is an FX0A (R256). -/
def KeyWaitInv (s : State) : Prop :=
  (s.captured ≠ none → s.seeking = true) ∧
  (s.seeking = true → ∃ w x, s.fetch = some w ∧ decode w = .ldVxK x)

/-- All the invariants: the memory is in canonical form, and the two above. -/
def CoreInv (s : State) : Prop := s.mem.wf ∧ BoundsInv s ∧ KeyWaitInv s

/-- The operations that neither load a program nor construct a new core nor resolve a key: what a host does that leaves a key-wait
waiting (R287, R313). -/
def HostOp.keepsWaiting : HostOp → Bool
  | .step | .tickTimers | .setKeyState _ _ | .snapshot | .clearDirty | .readSeeking => true
  | .construct | .load _ | .resolveKey _ => false

/-- Does the operation load a program? The host does so at most once, before the first step (R296, R302). -/
def HostOp.isLoad : HostOp → Bool
  | .load _ => true
  | .construct | .step | .tickTimers | .setKeyState _ _ | .resolveKey _ | .snapshot | .clearDirty | .readSeeking => false

end Sys2Proof.Machine
end

