-- ==== Sys2Proof/Certificates/Slice0/Obligations.lean ====
section
/-! DEFINITION. The statements about the model, in the order of OBLIGATIONS.json. `exec` runs on the state the fetch left, so the
`pc` of its argument is the instruction's address plus 2 (R142). A frame, `ChangesOnly w s t`, says of every register, `pc`, `I`,
the stack, both timers, every pixel, `dirty`, every key, the key-wait state, every byte of memory and the draw counter that it is
unchanged unless it is in `w`. Where a docstring says DERIVED, a clause rests on a decision of 92_eei_decisions.md, which the spec
marks as its own choice, and the docstring names it. -/

open Sys2Proof Sys2Proof.Machine

/-! ### Encoding -/

/-- DERIVED from the field layout and the opcode map (30_encoding.md sections 1 and 3): decoding the word of a well-formed
instruction gives it back, with every operand at every value. -/
def Obligations.DecodeOfEncode : Prop :=
  ∀ i : Instr, wellFormed i = true → decode (encode i) = i

/-- DERIVED from R120, which the spec marks as derived: the decoder is total, and every word is the encoding of the one
well-formed instruction it decodes to, so no bit of a word is dropped. -/
def Obligations.EncodeOfDecode : Prop :=
  ∀ w : Word, wellFormed (decode w) = true ∧ encode (decode w) = w

/-- DERIVED: words written out from the patterns of 30_encoding.md section 3 and the examples of files 41 to 45 decode to the
instructions they stand for, read through the byte decoder. -/
def Obligations.SampleWordsDecode : Prop :=
  decodeBytes [0x00, 0xE0] = .ok (.cls, []) ∧ decodeBytes [0x00, 0xEE] = .ok (.ret, []) ∧
  decodeBytes [0x12, 0x34] = .ok (.jp 0x234, []) ∧ decodeBytes [0x33, 0x42] = .ok (.seImm 3 0x42, []) ∧
  decodeBytes [0x6A, 0x2B] = .ok (.ldImm 0xA 0x2B, []) ∧ decodeBytes [0x81, 0x24] = .ok (.addReg 1 2, []) ∧
  decodeBytes [0x81, 0x2E] = .ok (.shl 1 2, []) ∧ decodeBytes [0xA2, 0x02] = .ok (.ldI 0x202, []) ∧
  decodeBytes [0xD1, 0x25] = .ok (.drw 1 2 5, []) ∧ decodeBytes [0xE1, 0xA1] = .ok (.sknp 1, []) ∧
  decodeBytes [0xF3, 0x0A] = .ok (.ldVxK 3, []) ∧ decodeBytes [0xF2, 0x65] = .ok (.ldRegsMem 2, []) ∧
  decodeBytes [0x01, 0x23] = .ok (.sys 0x123, []) ∧ decodeBytes [0x51, 0x21] = .ok (.nop5 1 2 1, []) ∧
  decodeBytes [0xF1, 0xFF] = .ok (.nopF 1 0xFF, []) ∧ decodeBytes [0x00] = .error .truncated

/-- DERIVED (R121 on the strict decoding of D15, log entry 14): the no-op space is exactly the listed words, and executing one
changes nothing but `pc`, which the fetch has advanced by 2. -/
def Obligations.NoOpSpaceIsExact : Prop :=
  (∀ w : Word, (decode w).isNoOp = true ↔
    (fieldF w = 0x0#4 ∧ w ≠ 0x00E0#16 ∧ w ≠ 0x00EE#16) ∨
    ((fieldF w = 0x5#4 ∨ fieldF w = 0x9#4) ∧ fieldN w ≠ 0x0#4) ∨
    (fieldF w = 0x8#4 ∧ fieldN w ∈ [0x8#4, 0x9#4, 0xA#4, 0xB#4, 0xC#4, 0xD#4, 0xF#4]) ∨
    (fieldF w = 0xE#4 ∧ fieldNN w ∉ [0x9E#8, 0xA1#8]) ∨
    (fieldF w = 0xF#4 ∧ fieldNN w ∉ [0x07#8, 0x0A#8, 0x15#8, 0x18#8, 0x1E#8, 0x29#8, 0x33#8, 0x55#8, 0x65#8])) ∧
  (∀ (s : State) (w : Word), s.fetch = some w → (decode w).isNoOp = true →
    ∃ t, step s = .next t ∧ t.pc = s.pc + 2 ∧ ChangesOnly (· = .pc) s t)

/-- DERIVED (40_step_cycle.md section 2; D15 for the rows of families 0, 5 and 9): each of the six fallback rows completes and
changes nothing, with no flag and no fault. -/
def Obligations.NoOpsComplete : Prop :=
  ∀ (x y : RegIx) (n : Nibble) (nn : Byte) (nnn : Addr) (s : State),
    ∀ i ∈ [Instr.sys nnn, .nop5 x y n, .nop8 x y n, .nop9 x y n, .nopE x nn, .nopF x nn],
      ∃ t, exec i s = .next t ∧ ChangesOnly (fun _ => False) s t

/-! ### The step and its faults -/

/-- R140: a step is the bounds check, the big-endian fetch, the advance of `pc` by 2 and the execution of the decoded instruction;
a fetch beyond memory returns `OutOfBounds`. -/
def Obligations.StepRunsDecodedInstruction : Prop :=
  ∀ s : State,
    (0xFFF < s.pc.toNat + 1 → step s = .fault .outOfBounds) ∧
    (s.pc.toNat + 1 ≤ 0xFFF → ∀ w : Word,
      w.toNat = 256 * (s.readByte s.pc.toNat).toNat + (s.readByte (s.pc.toNat + 1)).toNat →
      step s = exec (decode w) { s with pc := s.pc + 2 })

/-- R144: only 00EE, 2NNN and the memory-accessing instructions DXYN, FX33, FX55 and FX65 raise a fault, each its own; no step
refuses an instruction. -/
def Obligations.OnlyListedFaults : Prop :=
  (∀ (i : Instr) (s : State) (f : Fault), exec i s = .fault f →
    (i = .ret ∧ f = .stackUnderflow) ∨ ((∃ nnn, i = .call nnn) ∧ f = .stackOverflow) ∨
    (((∃ x y n, i = .drw x y n) ∨ (∃ x, i = .ldB x ∨ i = .ldMemRegs x ∨ i = .ldRegsMem x)) ∧ f = .outOfBounds)) ∧
  (∀ (s : State) (r : Refusal), step s ≠ .refused r)

/-- DERIVED (D13, the spec's choice for R274; log entry 13): the step operation that returns a fault leaves the state unchanged
where the fetch faulted, and otherwise leaves `pc` advanced by 2 and nothing else changed. -/
def Obligations.FaultingStepLeaves : Prop :=
  ∀ (s : State) (f : Fault), step s = .fault f →
    (perform .step s).2 = .fault f ∧
    (s.fetch = none → (perform .step s).1 = s) ∧
    (s.fetch ≠ none → (perform .step s).1.pc = s.pc + 2 ∧ ChangesOnly (· = .pc) s (perform .step s).1)

/-- DERIVED from R146, which the spec marks as derived, and R147 (D26, log entry 28): a jump to its own address leaves every state
element unchanged, and so the state that ends a run, `State.atHalt`, is a fixed point of the step. -/
def Obligations.SelfJumpIsFixedPoint : Prop :=
  (∀ (s : State) (nnn : Addr), s.fetch = some (encode (.jp nnn)) → s.pc.toNat = nnn.toNat → step s = .next s) ∧
  (∀ s : State, s.atHalt = true → step s = .next s)

/-- The test harness's placement: after it, the next step runs the decoded word, in every state; memory changes in two bytes
alone, and `pc` only where the fetch would have faulted. DERIVED (log entry 21): the model's own convention. -/
def Obligations.PlacedWordRuns : Prop :=
  ∀ (s : State) (w : Nat), w < 65536 →
    step (s.withFetchWord 16 w) = exec (decode (BitVec.ofNat 16 w)) (s.withFetchWord 16 w).advance ∧
    (s.pc.toNat ≤ 0xFFE → ChangesOnly (fun p => p.isByteOf s.pc.toNat 2) s (s.withFetchWord 16 w))

/-! ### Control transfer -/

/-- R162: `pc <- zext_16(NNN)`, whatever the state; no fault. -/
def Obligations.JumpSetsPc : Prop :=
  ∀ nnn : Addr, decode (wordNNN 0x1 nnn) = .jp nnn ∧
    ∀ s : State, ∃ t, exec (.jp nnn) s = .next t ∧ t.pc.toNat = nnn.toNat ∧ ChangesOnly (· = .pc) s t

/-- DERIVED (D14 for the capacity; 41_flow.md 2NNN): with room on the stack, a call pushes the advanced `pc` as the newest entry,
keeps the older ones, and jumps; on a full stack it raises `StackOverflow`. -/
def Obligations.CallPushesAndJumps : Prop :=
  ∀ nnn : Addr, decode (wordNNN 0x2 nnn) = .call nnn ∧ ∀ s : State,
    (s.sp = stackDepth → exec (.call nnn) s = .fault .stackOverflow) ∧
    (s.sp < stackDepth → ∃ t, exec (.call nnn) s = .next t ∧ t.pc.toNat = nnn.toNat ∧ t.sp = s.sp + 1 ∧
      t.stackEntry s.sp = some s.pc ∧ (∀ k, k < s.sp → t.stackEntry k = s.stackEntry k) ∧
      ChangesOnly (fun p => p = .pc ∨ p = .stack) s t)

/-- DERIVED (R161; D13, log entry 13, for what the faulting step leaves): a return pops the newest entry into `pc`; with an empty
stack it raises `StackUnderflow`, and the step leaves `pc` advanced and nothing else changed. -/
def Obligations.ReturnPopsIntoPc : Prop :=
  decode 0x00EE#16 = .ret ∧ ∀ s : State,
    (s.sp = 0 → exec .ret s = .fault .stackUnderflow) ∧
    (s.sp = 0 → s.fetch = some 0x00EE#16 →
      perform .step s = ({ s with pc := s.pc + 2 }, .fault .stackUnderflow)) ∧
    (∀ k, s.sp = k + 1 → ∃ t, exec .ret s = .next t ∧ some t.pc = s.stackEntry k ∧ t.sp = k ∧
      (∀ j, j < k → t.stackEntry j = s.stackEntry j) ∧ ChangesOnly (fun p => p = .pc ∨ p = .stack) s t)

/-- DERIVED (41_flow.md, the corner case of 2NNN; D14): a call followed by a return, with anything between that leaves the stack
as the call left it, continues at the address after the call with the stack as before it. -/
def Obligations.CallThenReturn : Prop :=
  ∀ (nnn : Addr) (s t u : State), s.sp < stackDepth → exec (.call nnn) s = .next t → u.stack = t.stack →
    ∃ r, exec .ret u = .next r ∧ r.pc = s.pc ∧ r.stack = s.stack

/-- R164, R165: 3XNN skips exactly when `V[X]` equals `NN`, 4XNN exactly when it does not; nothing but `pc` changes. -/
def Obligations.SkipOnImmediate : Prop :=
  ∀ (x : RegIx) (nn : Byte), decode (wordXNN 0x3 x nn) = .seImm x nn ∧ decode (wordXNN 0x4 x nn) = .sneImm x nn ∧
    ∀ s : State,
      (∃ t, exec (.seImm x nn) s = .next t ∧ t.pc = (if s.getV x = nn then s.pc + 2 else s.pc) ∧
        ChangesOnly (· = .pc) s t) ∧
      (∃ t, exec (.sneImm x nn) s = .next t ∧ t.pc = (if s.getV x = nn then s.pc else s.pc + 2) ∧
        ChangesOnly (· = .pc) s t)

/-- DERIVED (R166, R167; D15, log entry 14, for the words with `N` not 0): 5XY0 skips exactly when `V[X]` equals `V[Y]`, 9XY0
exactly when it does not; with `N` not 0 the word is a no-op. -/
def Obligations.SkipOnRegisters : Prop :=
  ∀ x y : RegIx, decode (wordXYN 0x5 x y 0) = .seReg x y ∧ decode (wordXYN 0x9 x y 0) = .sneReg x y ∧
    (∀ n : Nibble, n ≠ 0 → decode (wordXYN 0x5 x y n) = .nop5 x y n ∧ decode (wordXYN 0x9 x y n) = .nop9 x y n) ∧
    ∀ s : State,
      (∃ t, exec (.seReg x y) s = .next t ∧ t.pc = (if s.getV x = s.getV y then s.pc + 2 else s.pc) ∧
        ChangesOnly (· = .pc) s t) ∧
      (∃ t, exec (.sneReg x y) s = .next t ∧ t.pc = (if s.getV x = s.getV y then s.pc else s.pc + 2) ∧
        ChangesOnly (· = .pc) s t)

/-- DERIVED (D25: no mask to 12 bits; 41_flow.md BNNN): `pc <- NNN + V[0]`, the exact sum. -/
def Obligations.JumpOffsetAddsV0 : Prop :=
  ∀ nnn : Addr, decode (wordNNN 0xB nnn) = .jpV0 nnn ∧
    ∀ s : State, ∃ t, exec (.jpV0 nnn) s = .next t ∧ t.pc.toNat = nnn.toNat + (s.getV 0).toNat ∧
      ChangesOnly (· = .pc) s t

/-! ### Register loads and the ALU -/

/-- R183: `V[X] <- NN`. -/
def Obligations.LoadImmediate : Prop :=
  ∀ (x : RegIx) (nn : Byte), decode (wordXNN 0x6 x nn) = .ldImm x nn ∧
    ∀ s : State, ∃ t, exec (.ldImm x nn) s = .next t ∧ t.getV x = nn ∧ ChangesOnly (· = .reg x) s t

/-- R184: `V[X] <- (V[X] + NN) mod 256`; VF is not written unless it is the destination. -/
def Obligations.AddImmediateWraps : Prop :=
  ∀ (x : RegIx) (nn : Byte), decode (wordXNN 0x7 x nn) = .addImm x nn ∧
    ∀ s : State, ∃ t, exec (.addImm x nn) s = .next t ∧
      (t.getV x).toNat = ((s.getV x).toNat + nn.toNat) % 256 ∧ ChangesOnly (· = .reg x) s t

/-- R185: `V[X] <- V[Y]`. -/
def Obligations.AssignCopies : Prop :=
  ∀ x y : RegIx, decode (wordXYN 0x8 x y 0x0#4) = .ldReg x y ∧
    ∀ s : State, ∃ t, exec (.ldReg x y) s = .next t ∧ t.getV x = s.getV y ∧ ChangesOnly (· = .reg x) s t

/-- DERIVED (D4: VF is not written; 42_alu.md 8XY1 to 8XY3): each bit of `V[X]` becomes the OR, AND or XOR of the operands' bits;
nothing else changes. -/
def Obligations.LogicBitwise : Prop :=
  ∀ x y : RegIx, decode (wordXYN 0x8 x y 0x1#4) = .orReg x y ∧ decode (wordXYN 0x8 x y 0x2#4) = .andReg x y ∧
    decode (wordXYN 0x8 x y 0x3#4) = .xorReg x y ∧ ∀ s : State,
      (∃ t, exec (.orReg x y) s = .next t ∧ ChangesOnly (· = .reg x) s t ∧
        ∀ k, (t.getV x).getLsbD k = ((s.getV x).getLsbD k || (s.getV y).getLsbD k)) ∧
      (∃ t, exec (.andReg x y) s = .next t ∧ ChangesOnly (· = .reg x) s t ∧
        ∀ k, (t.getV x).getLsbD k = ((s.getV x).getLsbD k && (s.getV y).getLsbD k)) ∧
      (∃ t, exec (.xorReg x y) s = .next t ∧ ChangesOnly (· = .reg x) s t ∧
        ∀ k, (t.getV x).getLsbD k = Bool.xor ((s.getV x).getLsbD k) ((s.getV y).getLsbD k))

/-- DERIVED (R189; D3, log entry 7, for `X` = 0xF): VF is 1 exactly when the sum passes 255, and `V[X]` becomes the sum modulo 256
(for `X` = 0xF, VF ends as the carry). -/
def Obligations.AddSetsCarry : Prop :=
  ∀ x y : RegIx, decode (wordXYN 0x8 x y 0x4#4) = .addReg x y ∧ ∀ s : State, ∃ t, exec (.addReg x y) s = .next t ∧
    t.getV vF = (if (s.getV x).toNat + (s.getV y).toNat > 255 then 1 else 0) ∧
    (x ≠ vF → (t.getV x).toNat = ((s.getV x).toNat + (s.getV y).toNat) % 256) ∧
    ChangesOnly (fun p => p = .reg x ∨ p = .reg vF) s t

/-- DERIVED (R190; D3, log entry 7, for `X` = 0xF): VF is 1 exactly when `V[X] >= V[Y]`, and `V[X]` becomes the difference modulo
256 (for `X` = 0xF, VF ends as the flag). -/
def Obligations.SubSetsNotBorrow : Prop :=
  ∀ x y : RegIx, decode (wordXYN 0x8 x y 0x5#4) = .sub x y ∧ ∀ s : State, ∃ t, exec (.sub x y) s = .next t ∧
    t.getV vF = (if (s.getV x).toNat ≥ (s.getV y).toNat then 1 else 0) ∧
    (x ≠ vF → ((t.getV x).toNat : Int) = ((s.getV x).toNat - (s.getV y).toNat : Int) % 256) ∧
    ChangesOnly (fun p => p = .reg x ∨ p = .reg vF) s t

/-- DERIVED from R192, which the spec marks as derived, and D3 (log entry 7) for `X` = 0xF: the same with the operands exchanged.
-/
def Obligations.SubnSetsNotBorrow : Prop :=
  ∀ x y : RegIx, decode (wordXYN 0x8 x y 0x7#4) = .subn x y ∧ ∀ s : State, ∃ t, exec (.subn x y) s = .next t ∧
    t.getV vF = (if (s.getV y).toNat ≥ (s.getV x).toNat then 1 else 0) ∧
    (x ≠ vF → ((t.getV x).toNat : Int) = ((s.getV y).toNat - (s.getV x).toNat : Int) % 256) ∧
    ChangesOnly (fun p => p = .reg x ∨ p = .reg vF) s t

/-- DERIVED (D2: the shifted register is the one `SHIFT_SOURCE` names, here `V[X]`; D3: the flag is written last): logical shifts
by one, VF holding the evicted bit. The claim holds for the other source too, with `Y` for `X`. -/
def Obligations.ShiftsEvictIntoFlag : Prop :=
  ∀ x y : RegIx, decode (wordXYN 0x8 x y 0x6#4) = .shr x y ∧ decode (wordXYN 0x8 x y 0xE#4) = .shl x y ∧
    ∀ (s : State) (b : Nat), b = (s.getV (match shiftSource with | .vx => x | .vy => y)).toNat →
      (∃ t, exec (.shr x y) s = .next t ∧ (t.getV vF).toNat = b % 2 ∧ (x ≠ vF → (t.getV x).toNat = b / 2) ∧
        ChangesOnly (fun p => p = .reg x ∨ p = .reg vF) s t) ∧
      (∃ t, exec (.shl x y) s = .next t ∧ (t.getV vF).toNat = b / 128 ∧ (x ≠ vF → (t.getV x).toNat = 2 * b % 256) ∧
        ChangesOnly (fun p => p = .reg x ∨ p = .reg vF) s t)

/-- DERIVED (D22: the draw is free; log entry 2): `V[X]` becomes the drawn byte masked by `NN`, whatever byte is drawn, and the
next CXNN takes the next draw. -/
def Obligations.RandomIsMaskedDraw : Prop :=
  ∀ (x : RegIx) (nn : Byte), decode (wordXNN 0xC x nn) = .rnd x nn ∧ ∀ s : State,
    ∃ t, exec (.rnd x nn) s = .next t ∧ t.draws = s.draws + 1 ∧
      (∀ k, (t.getV x).getLsbD k = ((Config.rand s.draws).getLsbD k && nn.getLsbD k)) ∧
      (t.getV x).toNat ≤ nn.toNat ∧ ChangesOnly (fun p => p = .reg x ∨ p = .draws) s t

/-! ### Index register and memory -/

/-- R210: `I <- zext_16(NNN)`. -/
def Obligations.LoadIndex : Prop :=
  ∀ nnn : Addr, decode (wordNNN 0xA nnn) = .ldI nnn ∧
    ∀ s : State, ∃ t, exec (.ldI nnn) s = .next t ∧ t.index.toNat = nnn.toNat ∧ ChangesOnly (· = .index) s t

/-- DERIVED (D5: `FX1E_INDEX_MODE` is open, so both modes are stated; D6: VF is unchanged below 0x1000): `I` takes the exact sum
below 0x1000, and the sum by the mode from there on with VF set to 1. -/
def Obligations.AddIndexOverflow : Prop :=
  ∀ x : RegIx, decode (wordXNN 0xF x 0x1E#8) = .addI x ∧ ∀ s : State,
    ∃ t, exec (.addI x) s = .next t ∧
      ((s.index.toNat + (s.getV x).toNat < 0x1000 →
        t.index.toNat = s.index.toNat + (s.getV x).toNat ∧ t.getV vF = s.getV vF) ∧
      (0x1000 ≤ s.index.toNat + (s.getV x).toNat → t.getV vF = 1 ∧
        t.index.toNat = (match indexMode with
          | .wrap16 => (s.index.toNat + (s.getV x).toNat) % 0x10000
          | .mask12 => (s.index.toNat + (s.getV x).toNat) % 0x1000))) ∧
      ChangesOnly (fun p => p = .index ∨ p = .reg vF) s t

/-- R212: `I <- (V[X] & 0xF) * 5`. -/
def Obligations.GlyphAddress : Prop :=
  ∀ x : RegIx, decode (wordXNN 0xF x 0x29#8) = .ldF x ∧ ∀ s : State,
    ∃ t, exec (.ldF x) s = .next t ∧ t.index.toNat = (s.getV x).toNat % 16 * 5 ∧ t.index.toNat ≤ 0x04B ∧
      ChangesOnly (· = .index) s t

/-- DERIVED (D7: the fault above 0xFFF; C3: the decomposition; D11: the font policy): FX33 stores the hundreds, tens and ones of
`V[X]` at `I`, `I + 1`, `I + 2` and nothing else, or raises `OutOfBounds`. -/
def Obligations.StoreBcd : Prop :=
  ∀ x : RegIx, decode (wordXNN 0xF x 0x33#8) = .ldB x ∧ ∀ s : State,
    (0xFFF < s.index.toNat + 2 → exec (.ldB x) s = .fault .outOfBounds) ∧
    (s.index.toNat + 2 ≤ 0xFFF → fontRefuses fontWritePolicy s.index.toNat = false →
      ∃ t, exec (.ldB x) s = .next t ∧
        (t.readByte s.index.toNat).toNat = (s.getV x).toNat / 100 ∧
        (t.readByte (s.index.toNat + 1)).toNat = (s.getV x).toNat / 10 % 10 ∧
        (t.readByte (s.index.toNat + 2)).toNat = (s.getV x).toNat % 10 ∧
        ChangesOnly (fun p => p.isByteOf s.index.toNat 3) s t)

/-- DERIVED (D7, D8: the fault above 0xFFF; D11: the font policy): FX55 stores `V[0]` to `V[X]` from `I` on and advances `I` by
X + 1, or raises `OutOfBounds`. -/
def Obligations.StoreBlock : Prop :=
  ∀ x : RegIx, decode (wordXNN 0xF x 0x55#8) = .ldMemRegs x ∧ ∀ s : State,
    (0xFFF < s.index.toNat + x.val → exec (.ldMemRegs x) s = .fault .outOfBounds) ∧
    (s.index.toNat + x.val ≤ 0xFFF → fontRefuses fontWritePolicy s.index.toNat = false →
      ∃ t, exec (.ldMemRegs x) s = .next t ∧
        (∀ r : RegIx, r ≤ x → t.readByte (s.index.toNat + r.val) = s.getV r) ∧
        t.index.toNat = s.index.toNat + x.val + 1 ∧
        ChangesOnly (fun p => p = .index ∨ p.isByteOf s.index.toNat (x.val + 1)) s t)

/-- DERIVED (D7, D8: the fault above 0xFFF): FX65 loads `V[0]` to `V[X]` from `I` on and advances `I` by X + 1, or raises
`OutOfBounds`. -/
def Obligations.LoadBlock : Prop :=
  ∀ x : RegIx, decode (wordXNN 0xF x 0x65#8) = .ldRegsMem x ∧ ∀ s : State,
    (0xFFF < s.index.toNat + x.val → exec (.ldRegsMem x) s = .fault .outOfBounds) ∧
    (s.index.toNat + x.val ≤ 0xFFF →
      ∃ t, exec (.ldRegsMem x) s = .next t ∧
        (∀ r : RegIx, r ≤ x → t.getV r = s.readByte (s.index.toNat + r.val)) ∧
        t.index.toNat = s.index.toNat + x.val + 1 ∧
        ChangesOnly (fun p => p = .index ∨ ∃ r : RegIx, r ≤ x ∧ p = .reg r) s t)

/-- DERIVED (43_index_memory.md FX55 and FX65): storing a block and loading it back from the same address, with anything between
that keeps memory, gives the registers that were stored. -/
def Obligations.StoreBlockThenLoad : Prop :=
  ∀ (x : RegIx) (s t u : State), exec (.ldMemRegs x) s = .next t →
    (∀ a, u.readByte a = t.readByte a) → u.index = s.index →
    ∃ r, exec (.ldRegsMem x) u = .next r ∧ ∀ q : RegIx, q ≤ x → r.getV q = s.getV q

/-- DERIVED (D19; 20_memory.md section 3): a store into the program is seen by the next fetch. An FX55 with `I` equal to the
advanced `pc` and `X` at least 1 makes the next fetched word `V[0]` then `V[1]`. -/
def Obligations.StoreSeenByNextFetch : Prop :=
  ∀ (x : RegIx) (s t : State), 1 ≤ x.val → s.index = s.pc → exec (.ldMemRegs x) s = .next t →
    ∃ w : Word, t.fetch = some w ∧ w.toNat = 256 * (s.getV 0).toNat + (s.getV 1).toNat

/-! ### Display -/

/-- R231: every pixel off, `dirty` set, VF and everything else unchanged; always completes. -/
def Obligations.ClearTurnsEveryPixelOff : Prop :=
  decode 0x00E0#16 = .cls ∧ ∀ s : State,
    ∃ t, exec .cls s = .next t ∧ (∀ x y, t.disp.pixel x y = false) ∧ t.dirty = true ∧
      ChangesOnly (fun p => p = .dirty ∨ p.isPixel) s t

/-- DERIVED (D7: the fault above 0xFFF; D16: clipped rows are not read): DXYN XORs exactly the sprite's set bits that lie on the
display, sets VF to whether one of them met a pixel that was on, and sets `dirty`; it raises `OutOfBounds` exactly when a row to
be drawn lies above 0xFFF. -/
def Obligations.DrawXorsSprite : Prop :=
  ∀ (x y : RegIx) (n : Nibble), decode (wordXYN 0xD x y n) = .drw x y n ∧
    ∀ (s : State) (rows : Nat), rows = min n.toNat (32 - (s.getV y).toNat % 32) →
      (0 < rows ∧ 0xFFF < s.index.toNat + rows - 1 → exec (.drw x y n) s = .fault .outOfBounds) ∧
      (rows = 0 ∨ s.index.toNat + rows - 1 ≤ 0xFFF → ∃ t, exec (.drw x y n) s = .next t ∧ t.dirty = true ∧
        (∀ px py, px < 64 → py < 32 →
          (t.disp.pixel px py = true ↔ ¬ (s.disp.pixel px py = true ↔ spriteLit s x y n px py))) ∧
        (t.getV vF = 1 ∧ (∃ px py, px < 64 ∧ py < 32 ∧ spriteLit s x y n px py ∧ s.disp.pixel px py = true) ∨
         t.getV vF = 0 ∧ ¬ ∃ px py, px < 64 ∧ py < 32 ∧ spriteLit s x y n px py ∧ s.disp.pixel px py = true) ∧
        ChangesOnly (fun p => p = .reg vF ∨ p = .dirty ∨ p.isPixel) s t)

/-- DERIVED (D16): with `N` = 0 nothing is drawn and no fault is possible, whatever `I` is; VF becomes 0 and `dirty` is set. -/
def Obligations.DrawZeroRows : Prop :=
  ∀ (x y : RegIx) (s : State), ∃ t, exec (.drw x y 0) s = .next t ∧ t.getV vF = 0 ∧ t.dirty = true ∧
    ChangesOnly (fun p => p = .reg vF ∨ p = .dirty) s t

/-- DERIVED from R232 (R234, which the spec marks as derived, says less than all of it): drawing the same sprite twice at the same
location restores every pixel, and the second draw sets VF exactly when some set bit of the sprite lies on a visible pixel that
was off before the first draw. R234's own sentence, "at least one set bit on a visible pixel", is this for a display that is off
under the sprite; where every such pixel was on, the second draw only turns pixels on and VF is 0. The location is the same when
the first draw left `V[X]` and `V[Y]` alone, which it does unless one of them is VF with another value. -/
def Obligations.DrawTwiceRestores : Prop :=
  ∀ (x y : RegIx) (n : Nibble) (s t : State), exec (.drw x y n) s = .next t → t.getV x = s.getV x → t.getV y = s.getV y →
    ∃ u, exec (.drw x y n) t = .next u ∧ (∀ px py, u.disp.pixel px py = s.disp.pixel px py) ∧
      (u.getV vF = 1 ↔ ∃ px py, px < 64 ∧ py < 32 ∧ spriteLit s x y n px py ∧ s.disp.pixel px py = false)

/-! ### Keys and timers -/

/-- DERIVED (D9: a value above 15 names no pressed key; 45_input_timer.md EX9E and EXA1): EX9E skips exactly when the key `V[X]`
is pressed, EXA1 exactly when it is not. -/
def Obligations.KeySkips : Prop :=
  ∀ x : RegIx, decode (wordXNN 0xE x 0x9E#8) = .skp x ∧ decode (wordXNN 0xE x 0xA1#8) = .sknp x ∧ ∀ s : State,
    ∃ t u, exec (.skp x) s = .next t ∧ exec (.sknp x) s = .next u ∧
      ((∃ k : KeyIx, (s.getV x).toNat = k.val ∧ s.key[k] = true) → t.pc = s.pc + 2 ∧ u.pc = s.pc) ∧
      (¬ (∃ k : KeyIx, (s.getV x).toNat = k.val ∧ s.key[k] = true) → t.pc = s.pc ∧ u.pc = s.pc + 2) ∧
      ChangesOnly (· = .pc) s t ∧ ChangesOnly (· = .pc) s u

/-- R253: `V[X] <- DT`. -/
def Obligations.ReadDelayTimer : Prop :=
  ∀ x : RegIx, decode (wordXNN 0xF x 0x07#8) = .ldVxDt x ∧ ∀ s : State,
    ∃ t, exec (.ldVxDt x) s = .next t ∧ t.getV x = s.dt ∧ ChangesOnly (· = .reg x) s t

/-- DERIVED (D12, the key-wait handshake; 45_input_timer.md transitions 1 to 3): with no captured key FX0A seeks and rewinds `pc`,
so that the whole step leaves `pc` at the FX0A and changes `seeking` alone; with key `k` it writes `k` to `V[X]`, consumes it and
is idle, `pc` past it. -/
def Obligations.WaitKeyTransitions : Prop :=
  ∀ x : RegIx, decode (wordXNN 0xF x 0x0A#8) = .ldVxK x ∧ ∀ s : State,
    (s.captured = none → ∃ t, exec (.ldVxK x) s = .next t ∧ t.seeking = true ∧ t.pc = s.pc - 2 ∧
      ChangesOnly (fun p => p = .seeking ∨ p = .pc) s t) ∧
    (∀ k : KeyIx, s.captured = some k → ∃ t, exec (.ldVxK x) s = .next t ∧ (t.getV x).toNat = k.val ∧
      t.captured = none ∧ t.seeking = false ∧
      ChangesOnly (fun p => p = .reg x ∨ p = .captured ∨ p = .seeking) s t) ∧
    (s.captured = none → s.fetch = some (wordXNN 0xF x 0x0A#8) →
      ∃ t, step s = .next t ∧ t.seeking = true ∧ ChangesOnly (· = .seeking) s t)

/-- R257, R258: FX15 writes `DT` and FX18 writes `ST` with `V[X]`, and nothing else changes. -/
def Obligations.SetTimers : Prop :=
  ∀ x : RegIx, decode (wordXNN 0xF x 0x15#8) = .ldDtVx x ∧ decode (wordXNN 0xF x 0x18#8) = .ldStVx x ∧ ∀ s : State,
    (∃ t, exec (.ldDtVx x) s = .next t ∧ t.dt = s.getV x ∧ ChangesOnly (· = .dt) s t) ∧
    (∃ t, exec (.ldStVx x) s = .next t ∧ t.st = s.getV x ∧ ChangesOnly (· = .st) s t)

/-! ### What no instruction may change -/

/-- DERIVED from R32, R33, R35 to R42 and R82 together: no instruction changes a part of the state outside its write set
`mayWrite`; so no instruction changes a key, only 2NNN and 00EE change the stack, only 00E0 and DXYN a pixel or `dirty`, only FX15
`DT`, only FX18 `ST`, only FX33 and FX55 a byte of memory. -/
def Obligations.InstructionFrame : Prop :=
  ∀ (i : Instr) (s t : State), exec i s = .next t → ChangesOnly (mayWrite i s) s t

/-- DERIVED (R38, "read by no instruction"; R40, "No instruction reads it"): with another `ST` and another `dirty`, every
instruction raises the same fault or answers the same state but for those two. -/
def Obligations.AudioTimerAndDirtyAreUnread : Prop :=
  ∀ (i : Instr) (s : State) (v : Byte) (b : Bool),
    (∀ f, exec i s = .fault f → exec i { s with st := v, dirty := b } = .fault f) ∧
    (∀ t, exec i s = .next t → ∃ u, exec i { s with st := v, dirty := b } = .next u ∧
      ChangesOnly (fun p => p = .st ∨ p = .dirty) t u)

/-- DERIVED (R41, "read only by EX9E and EXA1"): with other keys pressed, every other instruction raises the same fault or answers
the same state but for the keys. -/
def Obligations.KeysAreReadBySkipsAlone : Prop :=
  ∀ (i : Instr) (s : State) (ks : Vector Bool 16), (∀ x, i ≠ .skp x ∧ i ≠ .sknp x) →
    (∀ f, exec i s = .fault f → exec i { s with key := ks } = .fault f) ∧
    (∀ t, exec i s = .next t → ∃ u, exec i { s with key := ks } = .next u ∧
      ChangesOnly (fun p => ∃ k, p = .key k) t u)

/-! ### Host operations and reset -/

/-- R281: `tick_timers` decrements each timer by 1 if above 0, independently, and changes nothing else. -/
def Obligations.TickCountsDown : Prop :=
  ∀ s : State, (perform .tickTimers s).2 = .ok ∧ (perform .tickTimers s).1.dt.toNat = s.dt.toNat - 1 ∧
    (perform .tickTimers s).1.st.toNat = s.st.toNat - 1 ∧
    ChangesOnly (fun p => p = .dt ∨ p = .st) s (perform .tickTimers s).1

/-- DERIVED (60_exceptions.md section 4, "never drives a timer below 0"): after `k` ticks each timer has counted down by `k`,
stopping at 0. -/
def Obligations.TicksReachZeroAndStay : Prop :=
  ∀ (k : Nat) (s : State), (runOps (List.replicate k .tickTimers) s).dt.toNat = s.dt.toNat - k ∧
    (runOps (List.replicate k .tickTimers) s).st.toNat = s.st.toNat - k

/-- DERIVED (D24, D12; 60_exceptions.md section 3): `set_key_state` writes one key and nothing else; `resolve_key` latches the key
while seeking, replacing an earlier one, and does nothing in Idle. -/
def Obligations.KeyOperations : Prop :=
  ∀ (k : KeyIx) (b : Bool) (s : State),
    ((perform (.setKeyState k b) s).1.key[k] = b ∧ ChangesOnly (· = .key k) s (perform (.setKeyState k b) s).1) ∧
    (s.seeking = true → (perform (.resolveKey k) s).1.captured = some k ∧
      ChangesOnly (· = .captured) s (perform (.resolveKey k) s).1) ∧
    (s.seeking = false → (perform (.resolveKey k) s).1 = s)

/-- DERIVED (R293, R295; D18, log entry 18, for what clears `dirty`): `snapshot` returns the grid and the dirty flag and changes
no state; so after 00E0 it shows every pixel off and the flag set; a read of `seeking` changes nothing, and `clear_dirty` clears
the flag alone. -/
def Obligations.SnapshotAndClearDirty : Prop :=
  ∀ s : State, (perform .snapshot s).1 = s ∧ (perform .readSeeking s) = (s, .seeking s.seeking) ∧
    (∃ d b, (perform .snapshot s).2 = .picture d b ∧ b = s.dirty ∧ ∀ x y, d.pixel x y = s.disp.pixel x y) ∧
    (∀ t, exec .cls s = .next t → ∃ d, (perform .snapshot t).2 = .picture d true ∧ ∀ x y, d.pixel x y = false) ∧
    (perform .clearDirty s).1.dirty = false ∧ ChangesOnly (· = .dirty) s (perform .clearDirty s).1

/-- DERIVED (D21; 70_reset_and_hazards.md section 1): `load` of more than 3584 bytes returns `RomTooLarge` and changes nothing;
any other writes its bytes from 0x200 on and nothing else. -/
def Obligations.LoadWritesProgram : Prop :=
  ∀ (bytes : List Byte) (s : State),
    (3584 < bytes.length → perform (.load bytes) s = (s, .fault .romTooLarge)) ∧
    (bytes.length ≤ 3584 → (perform (.load bytes) s).2 = .ok ∧
      (∀ k (h : k < bytes.length), (perform (.load bytes) s).1.readByte (0x200 + k) = bytes[k]) ∧
      ChangesOnly (fun p => p.isByteOf 0x200 bytes.length) s (perform (.load bytes) s).1)

/-- R300: construction zeroes all state, writes the font at offset 0 and sets `pc` to 0x200, whatever the core held before. -/
def Obligations.ConstructionResets : Prop :=
  ∀ s t : State, (t = State.reset ∨ t = (perform .construct s).1) →
    (∀ r, t.getV r = 0) ∧ t.index = 0 ∧ t.pc = 0x200 ∧ t.sp = 0 ∧ t.dt = 0 ∧ t.st = 0 ∧
    (∀ x y, t.disp.pixel x y = false) ∧ t.dirty = false ∧ (∀ k : KeyIx, t.key[k] = false) ∧ t.seeking = false ∧
    t.captured = none ∧ (∀ a (h : a < font.length), t.readByte a = font[a]) ∧ (∀ a, font.length ≤ a → t.readByte a = 0) ∧
    font.length = 80

/-! ### Invariants -/

/-- DERIVED: the reset state meets every invariant of `CoreInv`. Its memory form is the model's own choice (log entry 24, DESIGN
CHOICE); the bounds on the stack and on `pc` rest on R46, D14 (log entry 4) and D25 (log entry 16); the key-wait part on R46 and
R256 (D12, log entry 12). -/
def Obligations.ResetMeetsInvariants : Prop := CoreInv State.reset

/-- DERIVED (the model's own memory form, log entry 24; 20_memory.md section 1): every step keeps the memory canonical, so that
equal memories are equal data and no byte outside 0x000-0xFFF is ever held. -/
def Obligations.StepKeepsMemoryCanonical : Prop :=
  ∀ s t : State, s.mem.wf → step s = .next t → t.mem.wf

/-- DERIVED (D14, D25; 10_state.md sections 2 and 4): every step keeps the call stack within its capacity, every return address at
most 0x1000 and `pc` at most 0x10FE, so that no write of `pc` wraps. -/
def Obligations.StepKeepsBounds : Prop :=
  ∀ s t : State, BoundsInv s → step s = .next t → BoundsInv t

/-- DERIVED (D12; 45_input_timer.md R256): every step keeps the key-wait invariant: a captured key only while seeking, and while
seeking the word at `pc` is an FX0A, which no instruction can overwrite. -/
def Obligations.StepKeepsKeyWait : Prop :=
  ∀ s t : State, KeyWaitInv s → step s = .next t → KeyWaitInv t

/-- DERIVED: every host operation, a faulting step among them, keeps all the invariants of `CoreInv`, but for a `load` while
seeking, which the host must not do (R296; D21, log entry 17). The memory form is the model's own choice (log entry 24, DESIGN
CHOICE); the bounds on the stack and on `pc` rest on D14 (log entry 4), D25 (log entry 16) and what a faulting step leaves (D13,
log entry 13); the key-wait part on R256 (D12, log entry 12). -/
def Obligations.HostOperationsKeepInvariants : Prop :=
  ∀ (op : HostOp) (s : State), (op.isLoad = true → s.seeking = false) → CoreInv s → CoreInv (perform op s).1

/-- DERIVED: whatever sequence of operations the host issues after constructing the core and loading one program (R296, R302,
R280; D21, log entry 17), the state meets every invariant of `CoreInv`. The memory form is the model's own choice (log entry 24,
DESIGN CHOICE); the bounds on the stack and on `pc` rest on D14 (log entry 4), D25 (log entry 16) and D13 (log entry 13); the
key-wait part on R256 (D12, log entry 12). -/
def Obligations.EveryRunMeetsInvariants : Prop :=
  ∀ (bytes : List Byte) (ops : List HostOp), (∀ op ∈ ops, op.isLoad = false) →
    CoreInv (runOps (.construct :: .load bytes :: ops) State.reset)

/-- DERIVED (D12; R287, R313): a program that waits in FX0A under a host that never resolves waits for ever: through any sequence
of steps, ticks, key changes and display reads, `pc`, every register, `I`, the stack and every byte of memory stay, and it is
still seeking. -/
def Obligations.UnresolvedWaitHolds : Prop :=
  ∀ (ops : List HostOp) (s : State), (∀ op ∈ ops, op.keepsWaiting = true) → KeyWaitInv s → s.seeking = true →
    s.captured = none →
    (runOps ops s).pc = s.pc ∧ (∀ r, (runOps ops s).getV r = s.getV r) ∧ (runOps ops s).index = s.index ∧
    (runOps ops s).stack = s.stack ∧ (∀ a, (runOps ops s).readByte a = s.readByte a) ∧
    (runOps ops s).seeking = true ∧ (runOps ops s).captured = none

/-! ### Runs -/

/-- DERIVED (R147, the spec's own definition D26, log entry 28): a run ends at the first of a `step` that returns a fault, a state
at the self-jump halt, and the host stopping. The operations done lead to the last state; none of them was issued at the halt, and
none but the last was a faulting step; and the ending says which of the three came first. A refusal never ends a run. -/
def Obligations.RunEndsAtTheFirst : Prop :=
  ∀ (ops : List HostOp) (s : State), ∃ done, ops = done ++ (runToEnd ops s).rest ∧
    (runToEnd ops s).last = runOps done s ∧
    (∀ p op q, done = p ++ op :: q → (runOps p s).atHalt = false ∧
      (op = .step → ∀ f, step (runOps p s) = .fault f → q = [] ∧ (runToEnd ops s).ending = .fault f)) ∧
    (((runToEnd ops s).ending = .halt ∧ (runToEnd ops s).last.atHalt = true) ∨
     (∃ f p, (runToEnd ops s).ending = .fault f ∧ done = p ++ [.step] ∧ step (runOps p s) = .fault f) ∨
     ((runToEnd ops s).ending = .hostStopped ∧ (runToEnd ops s).rest = [] ∧ (runToEnd ops s).last.atHalt = false))
end

