-- ==== Sys2Proof/Laws/Decode.lean ====
section
/-! SUPPORT. Fields and built words as natural numbers, and words under the masks of the opcode table. -/

namespace Sys2Proof

/-! ### Fields (R111) -/

theorem fieldF_toNat (w : Word) : (fieldF w).toNat = w.toNat / 0x1000 := by
  have := w.isLt
  simp [fieldF, Nat.shiftRight_eq_div_pow]; omega

theorem fieldX_val (w : Word) : (fieldX w).val = w.toNat / 0x100 % 16 := by
  simp [fieldX, Nat.shiftRight_eq_div_pow]

theorem fieldY_val (w : Word) : (fieldY w).val = w.toNat / 0x10 % 16 := by
  simp [fieldY, Nat.shiftRight_eq_div_pow]

theorem fieldN_toNat (w : Word) : (fieldN w).toNat = w.toNat % 16 := by
  simp [fieldN]

theorem fieldNN_toNat (w : Word) : (fieldNN w).toNat = w.toNat % 0x100 := by
  simp [fieldNN]

theorem fieldNNN_toNat (w : Word) : (fieldNNN w).toNat = w.toNat % 0x1000 := by
  simp [fieldNNN]

/-! ### Built words -/

theorem wordNNN_toNat (f : Nat) (hf : f < 16) (nnn : Addr) : (wordNNN f nnn).toNat = f * 0x1000 + nnn.toNat := by
  have := nnn.isLt
  simp only [wordNNN, BitVec.toNat_ofNat]; omega

theorem wordXNN_toNat (f : Nat) (hf : f < 16) (x : RegIx) (nn : Byte) :
    (wordXNN f x nn).toNat = f * 0x1000 + x.val * 0x100 + nn.toNat := by
  have := nn.isLt
  simp only [wordXNN, BitVec.toNat_ofNat]; omega

theorem wordXYN_toNat (f : Nat) (hf : f < 16) (x y : RegIx) (n : Nibble) :
    (wordXYN f x y n).toNat = f * 0x1000 + x.val * 0x100 + y.val * 0x10 + n.toNat := by
  have := n.isLt
  simp only [wordXYN, BitVec.toNat_ofNat]; omega

/-! ### The fields of built words -/

theorem fieldF_wordNNN (f : Nat) (hf : f < 16) (nnn : Addr) : (fieldF (wordNNN f nnn)).toNat = f := by
  have := nnn.isLt
  rw [fieldF_toNat, wordNNN_toNat f hf]; omega

theorem fieldNNN_wordNNN (f : Nat) (hf : f < 16) (nnn : Addr) : fieldNNN (wordNNN f nnn) = nnn := by
  have := nnn.isLt
  apply BitVec.eq_of_toNat_eq
  rw [fieldNNN_toNat, wordNNN_toNat f hf]; omega

theorem fieldF_wordXNN (f : Nat) (hf : f < 16) (x : RegIx) (nn : Byte) : (fieldF (wordXNN f x nn)).toNat = f := by
  have := nn.isLt
  rw [fieldF_toNat, wordXNN_toNat f hf]; omega

theorem fieldX_wordXNN (f : Nat) (hf : f < 16) (x : RegIx) (nn : Byte) : fieldX (wordXNN f x nn) = x := by
  have := nn.isLt
  apply Fin.ext
  rw [fieldX_val, wordXNN_toNat f hf]; omega

theorem fieldNN_wordXNN (f : Nat) (hf : f < 16) (x : RegIx) (nn : Byte) : fieldNN (wordXNN f x nn) = nn := by
  have := nn.isLt
  apply BitVec.eq_of_toNat_eq
  rw [fieldNN_toNat, wordXNN_toNat f hf]; omega

theorem fieldF_wordXYN (f : Nat) (hf : f < 16) (x y : RegIx) (n : Nibble) : (fieldF (wordXYN f x y n)).toNat = f := by
  have := n.isLt
  rw [fieldF_toNat, wordXYN_toNat f hf]; omega

theorem fieldX_wordXYN (f : Nat) (hf : f < 16) (x y : RegIx) (n : Nibble) : fieldX (wordXYN f x y n) = x := by
  have := n.isLt
  apply Fin.ext
  rw [fieldX_val, wordXYN_toNat f hf]; omega

theorem fieldY_wordXYN (f : Nat) (hf : f < 16) (x y : RegIx) (n : Nibble) : fieldY (wordXYN f x y n) = y := by
  have := n.isLt
  apply Fin.ext
  rw [fieldY_val, wordXYN_toNat f hf]; omega

theorem fieldN_wordXYN (f : Nat) (hf : f < 16) (x y : RegIx) (n : Nibble) : fieldN (wordXYN f x y n) = n := by
  have := n.isLt
  apply BitVec.eq_of_toNat_eq
  rw [fieldN_toNat, wordXYN_toNat f hf]; omega

/-- The bytes of a word, joined again, are the word (R83). -/
theorem wordOfBytes_high_low (w : Word) : wordOfBytes (highByte w) (lowByte w) = w := by
  have := w.isLt
  apply BitVec.eq_of_toNat_eq
  rw [wordOfBytes, BitVec.toNat_append, ← Nat.shiftLeft_add_eq_or_of_lt (lowByte w).isLt]
  simp only [highByte, lowByte, BitVec.extractLsb'_toNat, Nat.shiftRight_eq_div_pow, Nat.shiftLeft_eq]
  omega

/-! ### Masks -/

theorem mask_family (w : Word) : w &&& 0xF000#16 = BitVec.ofNat 16 (w.toNat / 0x1000 * 0x1000) := by
  have h : w &&& 0xF000#16 = (w >>> 12) <<< 12 := by
    ext i hi
    interval_cases i <;> simp
  rw [h]
  apply BitVec.eq_of_toNat_eq
  simp [Nat.shiftLeft_eq, Nat.shiftRight_eq_div_pow]

theorem mask_split (w m : Word) (hm : 0xF000#16 &&& m = 0#16) :
    w &&& (0xF000#16 ||| m) = (w &&& 0xF000#16) + (w &&& m) := by
  have hz : (w &&& 0xF000#16) &&& (w &&& m) = 0#16 := by
    rw [show (w &&& 0xF000#16) &&& (w &&& m) = w &&& (0xF000#16 &&& m) by
      ext i hi; simp only [BitVec.getElem_and]; cases w[i] <;> simp, hm]
    simp
  rw [BitVec.add_eq_or_of_and_eq_zero _ _ hz]
  ext i hi
  simp only [BitVec.getElem_and, BitVec.getElem_or]
  cases w[i] <;> simp

theorem mask_family_n (w : Word) : w &&& 0xF00F#16 = BitVec.ofNat 16 (w.toNat / 0x1000 * 0x1000 + w.toNat % 16) := by
  rw [show (0xF00F#16 : Word) = 0xF000#16 ||| 0x000F#16 by decide, mask_split _ _ (by decide), mask_family]
  apply BitVec.eq_of_toNat_eq
  simp [Nat.and_two_pow_sub_one_eq_mod _ 4]

theorem mask_family_nn (w : Word) : w &&& 0xF0FF#16 = BitVec.ofNat 16 (w.toNat / 0x1000 * 0x1000 + w.toNat % 0x100) := by
  rw [show (0xF0FF#16 : Word) = 0xF000#16 ||| 0x00FF#16 by decide, mask_split _ _ (by decide), mask_family]
  apply BitVec.eq_of_toNat_eq
  simp [Nat.and_two_pow_sub_one_eq_mod _ 8]

theorem maskF000_wordNNN (f : Nat) (hf : f < 16) (nnn : Addr) :
    wordNNN f nnn &&& 0xF000#16 = BitVec.ofNat 16 (f * 0x1000) := by
  have := nnn.isLt
  rw [mask_family, wordNNN_toNat f hf]
  exact congrArg _ (by omega)

theorem maskF000_wordXNN (f : Nat) (hf : f < 16) (x : RegIx) (nn : Byte) :
    wordXNN f x nn &&& 0xF000#16 = BitVec.ofNat 16 (f * 0x1000) := by
  have := nn.isLt
  rw [mask_family, wordXNN_toNat f hf]
  exact congrArg _ (by omega)

theorem maskF0FF_wordXNN (f : Nat) (hf : f < 16) (x : RegIx) (nn : Byte) :
    wordXNN f x nn &&& 0xF0FF#16 = BitVec.ofNat 16 (f * 0x1000 + nn.toNat) := by
  have := nn.isLt
  rw [mask_family_nn, wordXNN_toNat f hf]
  exact congrArg _ (by omega)

theorem maskF000_wordXYN (f : Nat) (hf : f < 16) (x y : RegIx) (n : Nibble) :
    wordXYN f x y n &&& 0xF000#16 = BitVec.ofNat 16 (f * 0x1000) := by
  have := n.isLt
  rw [mask_family, wordXYN_toNat f hf]
  exact congrArg _ (by omega)

theorem maskF00F_wordXYN (f : Nat) (hf : f < 16) (x y : RegIx) (n : Nibble) :
    wordXYN f x y n &&& 0xF00F#16 = BitVec.ofNat 16 (f * 0x1000 + n.toNat) := by
  have := n.isLt
  rw [mask_family_n, wordXYN_toNat f hf]
  exact congrArg _ (by omega)

end Sys2Proof
end

