-- ==== Sys2Proof/Laws/Memory.lean ====
section
/-! SUPPORT. Reading after writing, and the canonical form, which every write keeps. No premise on the memory is needed for the
read laws. -/

namespace Sys2Proof.Machine

@[simp] theorem read_nil (a : Nat) : Memory.read [] a = resetByte a := rfl

theorem read_cons (b : Nat) (v : Byte) (m : Memory) (a : Nat) :
    Memory.read ((b, v) :: m) a = if b = a then v else m.read a := rfl

theorem read_erase (m : Memory) (a b : Nat) : (m.erase a).read b = if b = a then resetByte b else m.read b := by
  induction m with
  | nil => simp [Memory.erase]
  | cons c m ih =>
    obtain ⟨k, v⟩ := c
    simp only [Memory.erase] at ih ⊢
    by_cases hk : k = a
    · subst hk
      simp only [List.filter_cons, bne_self_eq_false, Bool.false_eq_true, if_false, ih, read_cons]
      by_cases hb : b = k
      · simp [hb]
      · simp [hb, Ne.symm hb]
    · simp only [List.filter_cons, bne_iff_ne, ne_eq, hk, not_false_iff, if_true, read_cons, ih]
      by_cases hb : b = a
      · subst hb; simp [hk]
      · simp [hb]

theorem read_insert (m : Memory) (a b : Nat) (v : Byte) (h : ∀ c ∈ m, c.1 ≠ a) :
    (m.insert a v).read b = if b = a then v else m.read b := by
  induction m with
  | nil => simp only [Memory.insert, read_cons, eq_comm (a := a)]
  | cons c m ih =>
    obtain ⟨k, w⟩ := c
    have hk : k ≠ a := h _ List.mem_cons_self
    simp only [Memory.insert]
    split
    · simp only [read_cons, eq_comm (a := a)]
    · simp only [read_cons, ih (fun c hc => h c (List.mem_cons_of_mem _ hc))]
      by_cases hb : b = a
      · subst hb; simp [hk]
      · simp [hb]

theorem erase_ne (m : Memory) (a : Nat) : ∀ c ∈ m.erase a, c.1 ≠ a := by
  intro c hc
  simpa using (List.mem_filter.1 hc).2

/-- A byte reads as written, and every other byte reads as before (R14, R89). -/
theorem read_write (m : Memory) (a b : Nat) (v : Byte) : (m.write a v).read b = if b = a then v else m.read b := by
  unfold Memory.write
  split
  · next h => rw [read_erase]; split <;> simp_all
  · rw [read_insert _ _ _ _ (erase_ne m a), read_erase]; split <;> simp_all

theorem mem_insert (m : Memory) (a : Nat) (v : Byte) (c : Host.Cell) : c ∈ m.insert a v ↔ c = (a, v) ∨ c ∈ m := by
  induction m with
  | nil => simp [Memory.insert]
  | cons d m ih =>
    simp only [Memory.insert]
    split
    · simp
    · simp only [List.mem_cons, ih]; tauto

theorem wf_erase {m : Memory} (a : Nat) (h : m.wf) : (m.erase a).wf :=
  ⟨h.1.filter _, fun c hc => h.2 c (List.mem_filter.1 hc).1⟩

theorem wf_insert {m : Memory} {a : Nat} {v : Byte} (h : m.wf) (ha : a ≤ memTop) (hv : v ≠ resetByte a)
    (hn : ∀ c ∈ m, c.1 ≠ a) : (m.insert a v).wf := by
  refine ⟨?_, fun c hc => ?_⟩
  · induction m with
    | nil => simp [Memory.insert]
    | cons d m ih =>
      have hm : Memory.wf m := ⟨(List.pairwise_cons.1 h.1).2, fun c hc => h.2 c (List.mem_cons_of_mem _ hc)⟩
      have hd := (List.pairwise_cons.1 h.1).1
      simp only [Memory.insert]
      split
      · next hlt =>
        refine List.pairwise_cons.2 ⟨fun c hc => ?_, h.1⟩
        rcases List.mem_cons.1 hc with rfl | hc
        · exact hlt
        · exact lt_trans hlt (hd c hc)
      · next hge =>
        refine List.pairwise_cons.2 ⟨fun c hc => ?_, ih hm (fun c hc => hn c (List.mem_cons_of_mem _ hc))⟩
        rcases (mem_insert m a v c).1 hc with rfl | hc
        · have := hn d List.mem_cons_self
          simp only
          omega
        · exact hd c hc
  · rcases (mem_insert m a v c).1 hc with rfl | hc
    · exact ⟨ha, hv⟩
    · exact h.2 c hc

/-- A write inside memory keeps the canonical form. -/
theorem wf_write {m : Memory} {a : Nat} (v : Byte) (h : m.wf) (ha : a ≤ memTop) : (m.write a v).wf := by
  unfold Memory.write
  split
  · exact wf_erase a h
  · next hv => exact wf_insert (wf_erase a h) ha hv (erase_ne m a)

/-- Memory above the font is zero at reset (R46). -/
theorem resetByte_above (a : Nat) (h : 0x50 ≤ a) : resetByte a = 0 := by
  have hl : font.length = 80 := by decide
  exact List.getD_eq_default _ _ (by omega)

theorem wf_tail {c : Host.Cell} {m : Memory} (h : Memory.wf (c :: m)) : Memory.wf m :=
  ⟨(List.pairwise_cons.1 h.1).2, fun d hd => h.2 d (List.mem_cons_of_mem _ hd)⟩

/-- An address below every entry is unlisted, and reads as at reset. -/
theorem read_below {m : Memory} {a : Nat} (h : ∀ c ∈ m, a < c.1) : m.read a = resetByte a := by
  induction m with
  | nil => rfl
  | cons c m ih =>
    obtain ⟨k, v⟩ := c
    have hk : a < k := h _ List.mem_cons_self
    rw [read_cons, if_neg (by omega), ih (fun c hc => h c (List.mem_cons_of_mem _ hc))]

/-- Two canonical memories that read alike are equal data. -/
theorem wf_ext {m n : Memory} (hm : m.wf) (hn : n.wf) (h : ∀ a, m.read a = n.read a) : m = n := by
  induction m generalizing n with
  | nil =>
    cases n with
    | nil => rfl
    | cons d n =>
      obtain ⟨l, w⟩ := d
      exact absurd (by simpa [read_cons] using (h l).symm) (hn.2 _ List.mem_cons_self).2
  | cons c m ih =>
    obtain ⟨k, v⟩ := c
    have hkm := (List.pairwise_cons.1 hm.1).1
    cases n with
    | nil => exact absurd (by simpa [read_cons] using h k) (hm.2 _ List.mem_cons_self).2
    | cons d n =>
      obtain ⟨l, w⟩ := d
      have hln := (List.pairwise_cons.1 hn.1).1
      have hk : k = l := by
        rcases lt_trichotomy k l with hlt | he | hlt
        · have e := h k
          rw [read_below (m := (l, w) :: n) (a := k)] at e
          · exact absurd (by simpa [read_cons] using e) (hm.2 _ List.mem_cons_self).2
          · intro c hc
            rcases List.mem_cons.1 hc with rfl | hc
            · exact hlt
            · exact lt_trans hlt (hln c hc)
        · exact he
        · have e := h l
          rw [read_below (m := (k, v) :: m) (a := l)] at e
          · exact absurd (by simpa [read_cons] using e.symm) (hn.2 _ List.mem_cons_self).2
          · intro c hc
            rcases List.mem_cons.1 hc with rfl | hc
            · exact hlt
            · exact lt_trans hlt (hkm c hc)
      subst hk
      have hv : v = w := by simpa [read_cons] using h k
      subst hv
      refine congrArg _ (ih (wf_tail hm) (wf_tail hn) fun a => ?_)
      by_cases ha : k = a
      · subst ha; rw [read_below hkm, read_below hln]
      · simpa [read_cons, ha] using h a

end Sys2Proof.Machine
end

