-- ==== Sys2Proof/Laws/State.lean ====
section
/-! SUPPORT. One lemma per field per update of State, and per update of a register, so that no later proof unfolds a record update. -/

namespace Sys2Proof.Machine

variable (s : State)

/-! ### setV -/

@[simp] theorem setV_v (r : RegIx) (b : Byte) : (s.setV r b).v = s.v.set r b := rfl
@[simp] theorem setV_index (r : RegIx) (b : Byte) : (s.setV r b).index = s.index := rfl
@[simp] theorem setV_pc (r : RegIx) (b : Byte) : (s.setV r b).pc = s.pc := rfl
@[simp] theorem setV_stack (r : RegIx) (b : Byte) : (s.setV r b).stack = s.stack := rfl
@[simp] theorem setV_dt (r : RegIx) (b : Byte) : (s.setV r b).dt = s.dt := rfl
@[simp] theorem setV_st (r : RegIx) (b : Byte) : (s.setV r b).st = s.st := rfl
@[simp] theorem setV_disp (r : RegIx) (b : Byte) : (s.setV r b).disp = s.disp := rfl
@[simp] theorem setV_dirty (r : RegIx) (b : Byte) : (s.setV r b).dirty = s.dirty := rfl
@[simp] theorem setV_key (r : RegIx) (b : Byte) : (s.setV r b).key = s.key := rfl
@[simp] theorem setV_seeking (r : RegIx) (b : Byte) : (s.setV r b).seeking = s.seeking := rfl
@[simp] theorem setV_captured (r : RegIx) (b : Byte) : (s.setV r b).captured = s.captured := rfl
@[simp] theorem setV_mem (r : RegIx) (b : Byte) : (s.setV r b).mem = s.mem := rfl
@[simp] theorem setV_draws (r : RegIx) (b : Byte) : (s.setV r b).draws = s.draws := rfl
@[simp] theorem setV_readByte (r : RegIx) (b : Byte) (c : Nat) : (s.setV r b).readByte c = s.readByte c := rfl
@[simp] theorem setV_sp (r : RegIx) (b : Byte) : (s.setV r b).sp = s.sp := rfl

/-! ### writeByte -/

@[simp] theorem writeByte_v (a : Nat) (b : Byte) : (s.writeByte a b).v = s.v := rfl
@[simp] theorem writeByte_index (a : Nat) (b : Byte) : (s.writeByte a b).index = s.index := rfl
@[simp] theorem writeByte_pc (a : Nat) (b : Byte) : (s.writeByte a b).pc = s.pc := rfl
@[simp] theorem writeByte_stack (a : Nat) (b : Byte) : (s.writeByte a b).stack = s.stack := rfl
@[simp] theorem writeByte_dt (a : Nat) (b : Byte) : (s.writeByte a b).dt = s.dt := rfl
@[simp] theorem writeByte_st (a : Nat) (b : Byte) : (s.writeByte a b).st = s.st := rfl
@[simp] theorem writeByte_disp (a : Nat) (b : Byte) : (s.writeByte a b).disp = s.disp := rfl
@[simp] theorem writeByte_dirty (a : Nat) (b : Byte) : (s.writeByte a b).dirty = s.dirty := rfl
@[simp] theorem writeByte_key (a : Nat) (b : Byte) : (s.writeByte a b).key = s.key := rfl
@[simp] theorem writeByte_seeking (a : Nat) (b : Byte) : (s.writeByte a b).seeking = s.seeking := rfl
@[simp] theorem writeByte_captured (a : Nat) (b : Byte) : (s.writeByte a b).captured = s.captured := rfl
@[simp] theorem writeByte_mem (a : Nat) (b : Byte) : (s.writeByte a b).mem = s.mem.write a b := rfl
@[simp] theorem writeByte_draws (a : Nat) (b : Byte) : (s.writeByte a b).draws = s.draws := rfl
@[simp] theorem writeByte_getV (a : Nat) (b : Byte) (q : RegIx) : (s.writeByte a b).getV q = s.getV q := rfl
@[simp] theorem writeByte_sp (a : Nat) (b : Byte) : (s.writeByte a b).sp = s.sp := rfl

/-! ### setIndex -/

@[simp] theorem setIndex_v (w : Word) : (s.setIndex w).v = s.v := rfl
@[simp] theorem setIndex_index (w : Word) : (s.setIndex w).index = w := rfl
@[simp] theorem setIndex_pc (w : Word) : (s.setIndex w).pc = s.pc := rfl
@[simp] theorem setIndex_stack (w : Word) : (s.setIndex w).stack = s.stack := rfl
@[simp] theorem setIndex_dt (w : Word) : (s.setIndex w).dt = s.dt := rfl
@[simp] theorem setIndex_st (w : Word) : (s.setIndex w).st = s.st := rfl
@[simp] theorem setIndex_disp (w : Word) : (s.setIndex w).disp = s.disp := rfl
@[simp] theorem setIndex_dirty (w : Word) : (s.setIndex w).dirty = s.dirty := rfl
@[simp] theorem setIndex_key (w : Word) : (s.setIndex w).key = s.key := rfl
@[simp] theorem setIndex_seeking (w : Word) : (s.setIndex w).seeking = s.seeking := rfl
@[simp] theorem setIndex_captured (w : Word) : (s.setIndex w).captured = s.captured := rfl
@[simp] theorem setIndex_mem (w : Word) : (s.setIndex w).mem = s.mem := rfl
@[simp] theorem setIndex_draws (w : Word) : (s.setIndex w).draws = s.draws := rfl
@[simp] theorem setIndex_getV (w : Word) (q : RegIx) : (s.setIndex w).getV q = s.getV q := rfl
@[simp] theorem setIndex_readByte (w : Word) (c : Nat) : (s.setIndex w).readByte c = s.readByte c := rfl
@[simp] theorem setIndex_sp (w : Word) : (s.setIndex w).sp = s.sp := rfl

/-! ### jump -/

@[simp] theorem jump_v (t : Word) : (s.jump t).v = s.v := rfl
@[simp] theorem jump_index (t : Word) : (s.jump t).index = s.index := rfl
@[simp] theorem jump_pc (t : Word) : (s.jump t).pc = t := rfl
@[simp] theorem jump_stack (t : Word) : (s.jump t).stack = s.stack := rfl
@[simp] theorem jump_dt (t : Word) : (s.jump t).dt = s.dt := rfl
@[simp] theorem jump_st (t : Word) : (s.jump t).st = s.st := rfl
@[simp] theorem jump_disp (t : Word) : (s.jump t).disp = s.disp := rfl
@[simp] theorem jump_dirty (t : Word) : (s.jump t).dirty = s.dirty := rfl
@[simp] theorem jump_key (t : Word) : (s.jump t).key = s.key := rfl
@[simp] theorem jump_seeking (t : Word) : (s.jump t).seeking = s.seeking := rfl
@[simp] theorem jump_captured (t : Word) : (s.jump t).captured = s.captured := rfl
@[simp] theorem jump_mem (t : Word) : (s.jump t).mem = s.mem := rfl
@[simp] theorem jump_draws (t : Word) : (s.jump t).draws = s.draws := rfl
@[simp] theorem jump_getV (t : Word) (q : RegIx) : (s.jump t).getV q = s.getV q := rfl
@[simp] theorem jump_readByte (t : Word) (c : Nat) : (s.jump t).readByte c = s.readByte c := rfl
@[simp] theorem jump_sp (t : Word) : (s.jump t).sp = s.sp := rfl

/-! ### advance -/

@[simp] theorem advance_v : (s.advance).v = s.v := rfl
@[simp] theorem advance_index : (s.advance).index = s.index := rfl
@[simp] theorem advance_pc : (s.advance).pc = s.pc + 2 := rfl
@[simp] theorem advance_stack : (s.advance).stack = s.stack := rfl
@[simp] theorem advance_dt : (s.advance).dt = s.dt := rfl
@[simp] theorem advance_st : (s.advance).st = s.st := rfl
@[simp] theorem advance_disp : (s.advance).disp = s.disp := rfl
@[simp] theorem advance_dirty : (s.advance).dirty = s.dirty := rfl
@[simp] theorem advance_key : (s.advance).key = s.key := rfl
@[simp] theorem advance_seeking : (s.advance).seeking = s.seeking := rfl
@[simp] theorem advance_captured : (s.advance).captured = s.captured := rfl
@[simp] theorem advance_mem : (s.advance).mem = s.mem := rfl
@[simp] theorem advance_draws : (s.advance).draws = s.draws := rfl
@[simp] theorem advance_getV (q : RegIx) : (s.advance).getV q = s.getV q := rfl
@[simp] theorem advance_readByte (c : Nat) : (s.advance).readByte c = s.readByte c := rfl
@[simp] theorem advance_sp : (s.advance).sp = s.sp := rfl

/-! ### rewind -/

@[simp] theorem rewind_v : (s.rewind).v = s.v := rfl
@[simp] theorem rewind_index : (s.rewind).index = s.index := rfl
@[simp] theorem rewind_pc : (s.rewind).pc = s.pc - 2 := rfl
@[simp] theorem rewind_stack : (s.rewind).stack = s.stack := rfl
@[simp] theorem rewind_dt : (s.rewind).dt = s.dt := rfl
@[simp] theorem rewind_st : (s.rewind).st = s.st := rfl
@[simp] theorem rewind_disp : (s.rewind).disp = s.disp := rfl
@[simp] theorem rewind_dirty : (s.rewind).dirty = s.dirty := rfl
@[simp] theorem rewind_key : (s.rewind).key = s.key := rfl
@[simp] theorem rewind_seeking : (s.rewind).seeking = s.seeking := rfl
@[simp] theorem rewind_captured : (s.rewind).captured = s.captured := rfl
@[simp] theorem rewind_mem : (s.rewind).mem = s.mem := rfl
@[simp] theorem rewind_draws : (s.rewind).draws = s.draws := rfl
@[simp] theorem rewind_getV (q : RegIx) : (s.rewind).getV q = s.getV q := rfl
@[simp] theorem rewind_readByte (c : Nat) : (s.rewind).readByte c = s.readByte c := rfl
@[simp] theorem rewind_sp : (s.rewind).sp = s.sp := rfl

/-! ### push -/

@[simp] theorem push_v (t : Word) : (s.push t).v = s.v := rfl
@[simp] theorem push_index (t : Word) : (s.push t).index = s.index := rfl
@[simp] theorem push_pc (t : Word) : (s.push t).pc = s.pc := rfl
@[simp] theorem push_stack (t : Word) : (s.push t).stack = t :: s.stack := rfl
@[simp] theorem push_dt (t : Word) : (s.push t).dt = s.dt := rfl
@[simp] theorem push_st (t : Word) : (s.push t).st = s.st := rfl
@[simp] theorem push_disp (t : Word) : (s.push t).disp = s.disp := rfl
@[simp] theorem push_dirty (t : Word) : (s.push t).dirty = s.dirty := rfl
@[simp] theorem push_key (t : Word) : (s.push t).key = s.key := rfl
@[simp] theorem push_seeking (t : Word) : (s.push t).seeking = s.seeking := rfl
@[simp] theorem push_captured (t : Word) : (s.push t).captured = s.captured := rfl
@[simp] theorem push_mem (t : Word) : (s.push t).mem = s.mem := rfl
@[simp] theorem push_draws (t : Word) : (s.push t).draws = s.draws := rfl
@[simp] theorem push_getV (t : Word) (q : RegIx) : (s.push t).getV q = s.getV q := rfl
@[simp] theorem push_readByte (t : Word) (c : Nat) : (s.push t).readByte c = s.readByte c := rfl
@[simp] theorem push_sp (t : Word) : (s.push t).sp = s.sp + 1 := rfl

/-- A register reads as written, and every other register as before (R13, R30). -/
@[simp] theorem setV_getV (r q : RegIx) (b : Byte) : (s.setV r b).getV q = if q = r then b else s.getV q := by
  simp only [State.getV, State.setV, Fin.getElem_fin, Vector.getElem_set, Fin.ext_iff, eq_comm (a := r.val)]

/-- A byte reads as written, and every other byte as before (R14). -/
@[simp] theorem writeByte_readByte (a c : Nat) (b : Byte) :
    (s.writeByte a b).readByte c = if c = a then b else s.readByte c := read_write s.mem a c b

end Sys2Proof.Machine
end

