-- ==== Sys2Proof/Laws/Ops.lean ====
section
/-! SUPPORT. What each shared operation can do, said once: the fetch, the skips, the flag writes, and the block transfers. -/

namespace Sys2Proof.Machine

variable (s : State)

/-! ### Fetch and skip -/

/-- The fetch answers a word exactly where `pc` is at most 0xFFE, and it is the big-endian word there (R83, R141). -/
theorem fetch_eq_some (w : Word) : s.fetch = some w ↔
    s.pc.toNat ≤ 0xFFE ∧ w = s.readByte s.pc.toNat ++ s.readByte (s.pc.toNat + 1) := by
  unfold State.fetch wordOfBytes memTop
  split
  · simp; omega
  · simp only [Option.some.injEq, eq_comm (a := w)]
    exact ⟨fun h => ⟨by omega, h⟩, fun h => h.2⟩

theorem fetch_eq_none : s.fetch = none ↔ 0xFFE < s.pc.toNat := by
  unfold State.fetch memTop
  split <;> simp <;> omega

/-- The fetch depends only on `pc` and memory. -/
theorem fetch_congr {s t : State} (hp : t.pc = s.pc) (hm : ∀ a, t.readByte a = s.readByte a) : t.fetch = s.fetch := by
  simp only [State.fetch, hp, hm]

theorem skipIf_pc (c : Bool) : (s.skipIf c).pc = if c then s.pc + 2 else s.pc := by cases c <;> rfl

/-- A skip changes `pc` alone (R160). -/
theorem skipIf_frame (c : Bool) : ChangesOnly (· = .pc) s (s.skipIf c) := by
  intro p hp
  cases c <;> cases p <;> first | rfl | exact absurd rfl hp

/-- The four ways a step can go (R140, R141, R144): the fetch faults, or the decoded instruction answers. -/
theorem step_cases : (s.fetch = none ∧ step s = .fault .outOfBounds) ∨
    ∃ w, s.fetch = some w ∧ step s = exec (decode w) s.advance := by
  unfold step
  split
  · exact .inl ⟨by assumption, rfl⟩
  · exact .inr ⟨_, by assumption, rfl⟩

/-! ### Flags -/

@[simp] theorem setWithFlag_getV (x q : RegIx) (r f : Byte) :
    (s.setWithFlag x r f).getV q = if q = vF then f else if q = x then r else s.getV q := by
  simp only [State.setWithFlag, setV_getV]

/-- The flag instructions write `V[X]` and VF alone (R32). -/
theorem setWithFlag_frame (x : RegIx) (r f : Byte) :
    ChangesOnly (fun p => p = .reg x ∨ p = .reg vF) s (s.setWithFlag x r f) := by
  intro p hp
  cases p <;> try rfl
  next q =>
    simp only [Part.reg.injEq, not_or] at hp
    simp [Part.same, hp.1, hp.2]

theorem setV_frame (x : RegIx) (b : Byte) : ChangesOnly (· = .reg x) s (s.setV x b) := by
  intro p hp
  cases p <;> try rfl
  next q =>
    simp only [Part.reg.injEq] at hp
    simp [Part.same, hp]

theorem flagByte_eq (c : Bool) : flagByte c = if c then 1 else 0 := rfl

/-! ### Block transfers -/

theorem mem_regBlock (x r : RegIx) : r ∈ regBlock x ↔ r ≤ x := by
  simp only [regBlock, List.mem_filter, decide_eq_true_eq, and_iff_right_iff_imp]
  exact fun _ => (by decide : ∀ q : RegIx, q ∈ allRegs) r

/-- Storing bytes changes memory alone. -/
theorem writeBytes_eq (a : Nat) (bs : List Byte) :
    s.writeBytes a bs = { s with mem := (s.writeBytes a bs).mem } := by
  induction bs generalizing s a with
  | nil => rfl
  | cons b bs ih => simp only [State.writeBytes]; rw [ih]; rfl

theorem writeBytes_readByte (a c : Nat) (bs : List Byte) : (s.writeBytes a bs).readByte c =
    if a ≤ c ∧ c < a + bs.length then bs.getD (c - a) 0 else s.readByte c := by
  induction bs generalizing s a with
  | nil => simp [State.writeBytes]
  | cons b bs ih =>
    simp only [State.writeBytes, ih, writeByte_readByte, List.length_cons]
    by_cases h : c = a
    · subst h; simp
    · by_cases h2 : a ≤ c ∧ c < a + (bs.length + 1)
      · rw [if_pos (by omega), if_pos h2]
        obtain ⟨k, hk⟩ : ∃ k, c = a + 1 + k := ⟨c - (a + 1), by omega⟩
        subst hk
        simp [show a + 1 + k - a = k + 1 by omega]
      · rw [if_neg (by omega), if_neg h2, if_neg h]

theorem writeBytes_wf (a : Nat) (bs : List Byte) (h : s.mem.wf) (hb : a + bs.length ≤ memTop + 1) :
    (s.writeBytes a bs).mem.wf := by
  induction bs generalizing s a with
  | nil => exact h
  | cons b bs ih =>
    simp only [List.length_cons] at hb
    exact ih _ _ (wf_write b h (by omega)) (by omega)

/-- Storing registers changes memory alone (R214). -/
theorem storeRegs_eq (base : Nat) (rs : List RegIx) :
    s.storeRegs base rs = { s with mem := (s.storeRegs base rs).mem } := by
  induction rs generalizing s with
  | nil => rfl
  | cons r rs ih => simp only [State.storeRegs]; rw [ih]; rfl

/-- Each stored register stands at its own address, and no other byte changes (R214). -/
theorem storeRegs_readByte (base : Nat) (rs : List RegIx) :
    (∀ r ∈ rs, (s.storeRegs base rs).readByte (base + r.val) = s.getV r) ∧
    (∀ a, (∀ r ∈ rs, a ≠ base + r.val) → (s.storeRegs base rs).readByte a = s.readByte a) := by
  induction rs generalizing s with
  | nil => simp [State.storeRegs]
  | cons r rs ih =>
    obtain ⟨h1, h2⟩ := ih (s.writeByte (base + r.val) (s.getV r))
    simp only [State.storeRegs]
    refine ⟨fun q hq => ?_, fun a ha => ?_⟩
    · by_cases hm : q ∈ rs
      · simpa using h1 q hm
      · have hqr : q = r := by simpa [hm] using hq
        subst hqr
        rw [h2 _ fun r' hr' => by
          intro he
          have : q = r' := Fin.ext (by omega)
          exact hm (this ▸ hr')]
        simp
    · rw [h2 a fun r' hr' => ha r' (List.mem_cons_of_mem _ hr')]
      simp [ha r List.mem_cons_self]

theorem storeRegs_wf (base : Nat) (rs : List RegIx) (h : s.mem.wf) (hb : ∀ r ∈ rs, base + r.val ≤ memTop) :
    (s.storeRegs base rs).mem.wf := by
  induction rs generalizing s with
  | nil => exact h
  | cons r rs ih =>
    exact ih _ (wf_write _ h (hb r List.mem_cons_self)) fun q hq => hb q (List.mem_cons_of_mem _ hq)

/-- Loading registers changes the registers alone (R215). -/
theorem loadRegs_eq (base : Nat) (rs : List RegIx) :
    s.loadRegs base rs = { s with v := (s.loadRegs base rs).v } := by
  induction rs generalizing s with
  | nil => rfl
  | cons r rs ih => simp only [State.loadRegs]; rw [ih]; rfl

/-- Each listed register holds the byte at its own address, and no other register changes (R215). -/
theorem loadRegs_getV (base : Nat) (rs : List RegIx) (q : RegIx) :
    (s.loadRegs base rs).getV q = if q ∈ rs then s.readByte (base + q.val) else s.getV q := by
  induction rs generalizing s with
  | nil => simp [State.loadRegs]
  | cons r rs ih =>
    simp only [State.loadRegs, ih, setV_readByte, setV_getV, List.mem_cons]
    by_cases hm : q ∈ rs <;> by_cases hq : q = r <;> simp [hm, hq]

theorem readBytes_getD (a n r : Nat) (h : r < n) : (s.readBytes a n).getD r 0 = s.readByte (a + r) := by
  induction n generalizing a r with
  | zero => omega
  | succ n ih =>
    cases r with
    | zero => rfl
    | succ r =>
      have := ih (a + 1) r (by omega)
      simp only [State.readBytes, List.getD_cons_succ, this]
      congr 1; omega

@[simp] theorem readBytes_length (a n : Nat) : (s.readBytes a n).length = n := by
  induction n generalizing a with
  | zero => rfl
  | succ n ih => simp [State.readBytes, ih]

end Sys2Proof.Machine
end

