-- ==== Sys2Proof/Laws/Display.lean ====
section
/-! SUPPORT. Pixels: reading after setting, and what drawing a sprite does to each pixel and to the collision flag (R230, R232). -/

namespace Sys2Proof.Machine

@[simp] theorem pixel_off (x y : Nat) : Display.off.pixel x y = false := by
  simp only [Display.pixel, Display.off]
  split <;> simp

/-- A pixel reads as set, and every other pixel as before; outside the grid nothing is set (R39). -/
theorem pixel_setPixel (d : Display) (x y px py : Nat) (b : Bool) : (d.setPixel x y b).pixel px py =
    if px = x ∧ py = y ∧ x < 64 ∧ y < 32 then b else d.pixel px py := by
  unfold Display.setPixel Display.pixel
  by_cases h : x < 64 ∧ y < 32
  · by_cases hp : px < 64 ∧ py < 32
    · simp only [h, hp, and_self, dite_true, Vector.getElem_set]
      by_cases hy : y = py
      · subst hy
        by_cases hx : x = px
        · subst hx; simp
        · simp [hx, Ne.symm hx]
      · simp [hy, Ne.symm hy]
    · simp only [h, hp, and_self, dite_true, dite_false]
      rw [if_neg]
      rintro ⟨rfl, rfl, -⟩
      exact hp h
  · simp only [h, dite_false, and_false, if_false]

/-- Flipping a pixel of the grid inverts it and leaves the others; it notes a collision where the pixel was on (R232). -/
theorem flip_pixel (k : Canvas) (x y px py : Nat) (hx : x < 64) (hy : y < 32) : (k.flip x y).disp.pixel px py =
    (if px = x ∧ py = y then !k.disp.pixel px py else k.disp.pixel px py) := by
  unfold Canvas.flip
  split <;> simp only [pixel_setPixel, hx, hy, and_true] <;> split <;> simp_all

theorem flip_hit (k : Canvas) (x y : Nat) : (k.flip x y).hit = (k.hit || k.disp.pixel x y) := by
  unfold Canvas.flip
  split <;> simp_all

/-- Is the pixel under a set bit of one sprite byte drawn from column `ox` on row `y`, among the listed places? -/
def bitsLit (b : Byte) (ox y : Nat) (cs : List Nat) (px py : Nat) : Prop :=
  py = y ∧ ox ≤ px ∧ px - ox ∈ cs ∧ b.getLsbD (7 - (px - ox)) = true

theorem drawBits_spec (b : Byte) (ox y : Nat) (hy : y < 32) (cs : List Nat) (hn : cs.Nodup) (k : Canvas) :
    (∀ px py, px < 64 → ((Canvas.drawBits b ox y cs k).disp.pixel px py = true ↔
      ¬ (k.disp.pixel px py = true ↔ bitsLit b ox y cs px py))) ∧
    ((Canvas.drawBits b ox y cs k).hit = true ↔
      k.hit = true ∨ ∃ px py, px < 64 ∧ bitsLit b ox y cs px py ∧ k.disp.pixel px py = true) := by
  induction cs generalizing k with
  | nil => simp [Canvas.drawBits, bitsLit]
  | cons c cs ih =>
    obtain ⟨hc, hn⟩ := List.nodup_cons.1 hn
    simp only [Canvas.drawBits]
    by_cases hb : ox + c < 64 ∧ b.getLsbD (7 - c) = true
    · rw [if_pos hb]
      obtain ⟨i1, i2⟩ := ih hn (k.flip (ox + c) y)
      refine ⟨fun px py hpx => ?_, ?_⟩
      · rw [i1 px py hpx, flip_pixel _ _ _ _ _ hb.1 hy]
        by_cases he : px = ox + c ∧ py = y
        · obtain ⟨rfl, rfl⟩ := he
          simp [bitsLit, hc, hb.2]
        · have : bitsLit b ox y (c :: cs) px py ↔ bitsLit b ox y cs px py := by
            simp only [bitsLit, List.mem_cons]
            constructor
            · rintro ⟨h1, h2, h3 | h3, h4⟩
              · exact absurd ⟨by omega, h1⟩ he
              · exact ⟨h1, h2, h3, h4⟩
            · rintro ⟨h1, h2, h3, h4⟩
              exact ⟨h1, h2, .inr h3, h4⟩
          rw [if_neg he, this]
      · rw [i2, flip_hit]
        simp only [Bool.or_eq_true]
        constructor
        · rintro ((h | h) | ⟨px, py, h1, h2, h3⟩)
          · exact .inl h
          · exact .inr ⟨ox + c, y, hb.1, ⟨rfl, by omega, by simp, by simpa using hb.2⟩, h⟩
          · obtain ⟨e1, e2, e3, e4⟩ := h2
            rw [flip_pixel _ _ _ _ _ hb.1 hy, if_neg] at h3
            · exact .inr ⟨px, py, h1, ⟨e1, e2, List.mem_cons_of_mem _ e3, e4⟩, h3⟩
            · rintro ⟨rfl, -⟩
              exact hc (by simpa using e3)
        · rintro (h | ⟨px, py, h1, ⟨e1, e2, e3, e4⟩, h3⟩)
          · exact .inl (.inl h)
          · rcases List.mem_cons.1 e3 with e3 | e3
            · obtain rfl : px = ox + c := by omega
              subst e1
              exact .inl (.inr h3)
            · refine .inr ⟨px, py, h1, ⟨e1, e2, e3, e4⟩, ?_⟩
              rw [flip_pixel _ _ _ _ _ hb.1 hy, if_neg]
              · exact h3
              · rintro ⟨rfl, -⟩
                exact hc (by simpa using e3)
    · rw [if_neg hb]
      obtain ⟨i1, i2⟩ := ih hn k
      have : ∀ px py, px < 64 → (bitsLit b ox y (c :: cs) px py ↔ bitsLit b ox y cs px py) := by
        intro px py hpx
        simp only [bitsLit, List.mem_cons]
        constructor
        · rintro ⟨h1, h2, h3 | h3, h4⟩
          · exact absurd ⟨by omega, h3 ▸ h4⟩ hb
          · exact ⟨h1, h2, h3, h4⟩
        · rintro ⟨h1, h2, h3, h4⟩
          exact ⟨h1, h2, .inr h3, h4⟩
      refine ⟨fun px py hpx => by rw [i1 px py hpx, this px py hpx], ?_⟩
      rw [i2]
      constructor
      · rintro (h | ⟨px, py, h1, h2, h3⟩)
        · exact .inl h
        · exact .inr ⟨px, py, h1, (this px py h1).2 h2, h3⟩
      · rintro (h | ⟨px, py, h1, h2, h3⟩)
        · exact .inl h
        · exact .inr ⟨px, py, h1, (this px py h1).1 h2, h3⟩

/-- Is the pixel under a set bit of the sprite bytes drawn from column `ox`, row `y` on? -/
def rowsLit (ox y : Nat) (bs : List Byte) (px py : Nat) : Prop :=
  y ≤ py ∧ py - y < bs.length ∧ ox ≤ px ∧ px - ox < 8 ∧ (bs.getD (py - y) 0).getLsbD (7 - (px - ox)) = true

theorem rowsLit_cons (ox y : Nat) (b : Byte) (bs : List Byte) (px py : Nat) :
    rowsLit ox y (b :: bs) px py ↔ bitsLit b ox y spriteColumns px py ∨ rowsLit ox (y + 1) bs px py := by
  have hm : ∀ n, n ∈ spriteColumns ↔ n < 8 := by
    intro n; simp [spriteColumns]; omega
  simp only [rowsLit, bitsLit, hm, List.length_cons]
  by_cases h : py = y
  · subst h; simp
  · constructor
    · rintro ⟨h1, h2, h3, h4, h5⟩
      refine .inr ⟨by omega, by omega, h3, h4, ?_⟩
      rwa [show py - y = (py - (y + 1)) + 1 by omega, List.getD_cons_succ] at h5
    · rintro (⟨h1, -⟩ | ⟨h1, h2, h3, h4, h5⟩)
      · exact absurd h1 h
      · refine ⟨by omega, by omega, h3, h4, ?_⟩
        rwa [show py - y = (py - (y + 1)) + 1 by omega, List.getD_cons_succ]

/-- Drawing rows that lie on the display XORs the sprite's set bits onto the pixels, and the collision flag says whether one of them
was on (R230, R232). -/
theorem drawRows_spec (ox y : Nat) (bs : List Byte) (hy : y + bs.length ≤ 32) (k : Canvas) :
    (∀ px py, px < 64 → ((Canvas.drawRows ox y bs k).disp.pixel px py = true ↔
      ¬ (k.disp.pixel px py = true ↔ rowsLit ox y bs px py))) ∧
    ((Canvas.drawRows ox y bs k).hit = true ↔
      k.hit = true ∨ ∃ px py, px < 64 ∧ rowsLit ox y bs px py ∧ k.disp.pixel px py = true) := by
  induction bs generalizing y k with
  | nil => simp [Canvas.drawRows, rowsLit]
  | cons b bs ih =>
    simp only [List.length_cons] at hy
    obtain ⟨d1, d2⟩ := drawBits_spec b ox y (by omega) spriteColumns (by decide) k
    obtain ⟨i1, i2⟩ := ih (y + 1) (by omega) (Canvas.drawBits b ox y spriteColumns k)
    have hdisj : ∀ px py, bitsLit b ox y spriteColumns px py → ¬ rowsLit ox (y + 1) bs px py := by
      rintro px py ⟨rfl, -⟩ ⟨h, -⟩; omega
    simp only [Canvas.drawRows]
    refine ⟨fun px py hpx => ?_, ?_⟩
    · rw [i1 px py hpx, d1 px py hpx, rowsLit_cons]
      have := hdisj px py
      tauto
    · rw [i2, d2]
      constructor
      · rintro ((h | ⟨px, py, h1, h2, h3⟩) | ⟨px, py, h1, h2, h3⟩)
        · exact .inl h
        · exact .inr ⟨px, py, h1, (rowsLit_cons ..).2 (.inl h2), h3⟩
        · refine .inr ⟨px, py, h1, (rowsLit_cons ..).2 (.inr h2), ?_⟩
          rw [d1 px py h1] at h3
          have := hdisj px py
          tauto
      · rintro (h | ⟨px, py, h1, h2, h3⟩)
        · exact .inl (.inl h)
        · rcases (rowsLit_cons ..).1 h2 with h2 | h2
          · exact .inl (.inr ⟨px, py, h1, h2, h3⟩)
          · refine .inr ⟨px, py, h1, h2, ?_⟩
            rw [d1 px py h1]
            have := hdisj px py
            tauto

end Sys2Proof.Machine
end

