-- ==== Sys2Proof/Laws/Exec.lean ====
section
/-! SUPPORT. What each meaning that can fault, branch or draw answers, said once: when it answers a next state, and which. The other
meanings answer one next state by definition. -/

namespace Sys2Proof.Machine

variable {s t : State}

theorem outOfRange_eq_false (base count : Nat) : outOfRange base count = false ↔ count = 0 ∨ base + count ≤ 0x1000 := by
  rw [outOfRange, decide_eq_false_iff_not, memTop]; omega

theorem storeFaults_eq_false (p : FontWritePolicy) (base count : Nat) : storeFaults p base count = false ↔
    (count = 0 ∨ base + count ≤ 0x1000) ∧ fontRefuses p base = false := by
  rw [storeFaults, Bool.or_eq_false_iff, outOfRange_eq_false]

/-- A guarded meaning answers a next state exactly where its guard is off. -/
theorem guarded_eq_next (c : Bool) (f : Fault) (u : State) :
    (if c then raise f else .next u : Result) = .next t ↔ c = false ∧ t = u := by
  cases c <;> simp [raise, eq_comm]

theorem execRet_eq_next : execRet s = .next t ↔ ∃ a rest, s.stack = a :: rest ∧ t = { s with stack := rest, pc := a } := by
  unfold execRet
  cases h : s.stack with
  | nil => simp [raise]
  | cons a rest => simp [eq_comm]

theorem callWith_eq_next (depth : Nat) (nnn : Addr) :
    callWith depth nnn s = .next t ↔ s.sp < depth ∧ t = (s.push s.pc).jump (addrWord nnn) := by
  unfold callWith
  split
  · next h => simp [raise]; omega
  · next h => simp [eq_comm]; omega

theorem storeBcdWith_eq_next (p : FontWritePolicy) (x : RegIx) : storeBcdWith p x s = .next t ↔
    (s.index.toNat + 3 ≤ 0x1000 ∧ fontRefuses p s.index.toNat = false) ∧
    t = s.writeBytes s.index.toNat (bcdDigits (s.getV x)) := by
  rw [storeBcdWith, guarded_eq_next, storeFaults_eq_false]; simp

theorem storeBlockWith_eq_next (p : FontWritePolicy) (x : RegIx) : storeBlockWith p x s = .next t ↔
    (s.index.toNat + (x.val + 1) ≤ 0x1000 ∧ fontRefuses p s.index.toNat = false) ∧
    t = (s.storeRegs s.index.toNat (regBlock x)).setIndex (BitVec.ofNat 16 (s.index.toNat + x.val + 1)) := by
  rw [storeBlockWith, guarded_eq_next, storeFaults_eq_false]; simp

theorem execLdRegsMem_eq_next (x : RegIx) : execLdRegsMem x s = .next t ↔ s.index.toNat + (x.val + 1) ≤ 0x1000 ∧
    t = (s.loadRegs s.index.toNat (regBlock x)).setIndex (BitVec.ofNat 16 (s.index.toNat + x.val + 1)) := by
  rw [execLdRegsMem, guarded_eq_next, outOfRange_eq_false]; simp

theorem execDrw_eq_next (x y : RegIx) (n : Nibble) : execDrw x y n s = .next t ↔
    (spriteRows n (originY (s.getV y)) = 0 ∨ s.index.toNat + spriteRows n (originY (s.getV y)) ≤ 0x1000) ∧
    t = s.drawSprite (originX (s.getV x)) (originY (s.getV y))
      (s.readBytes s.index.toNat (spriteRows n (originY (s.getV y)))) := by
  rw [execDrw, guarded_eq_next, outOfRange_eq_false]

theorem execLdVxK_eq_next (x : RegIx) : execLdVxK x s = .next t ↔
    (s.captured = none ∧ t = ({ s with seeking := true }).rewind) ∨
    ∃ k, s.captured = some k ∧ t = ({ s with captured := none, seeking := false }).setV x (BitVec.ofNat 8 k.val) := by
  unfold execLdVxK
  cases h : s.captured <;> simp [eq_comm]

/-! ### Drawing -/

theorem originX_eq (b : Byte) : originX b = b.toNat % 64 := by
  simp only [originX, BitVec.toNat_and]
  exact Nat.and_two_pow_sub_one_eq_mod b.toNat 6

theorem originY_eq (b : Byte) : originY b = b.toNat % 32 := by
  simp only [originY, BitVec.toNat_and]
  exact Nat.and_two_pow_sub_one_eq_mod b.toNat 5

theorem spriteRows_le (n : Nibble) (oy : Nat) (h : oy < 32) : oy + spriteRows n oy ≤ 32 := by
  unfold spriteRows; omega

/-- The pixels under the bytes DXYN reads are those of `spriteLit`, on the display. -/
theorem rowsLit_sprite (s : State) (x y : RegIx) (n : Nibble) (px py : Nat) (hy : py < 32) :
    rowsLit (originX (s.getV x)) (originY (s.getV y)) (s.readBytes s.index.toNat (spriteRows n (originY (s.getV y)))) px py ↔
    spriteLit s x y n px py := by
  simp only [rowsLit, spriteLit, readBytes_length, originX_eq, originY_eq]
  by_cases h : (s.getV y).toNat % 32 ≤ py ∧ py - (s.getV y).toNat % 32 < n.toNat
  · have hr : py - (s.getV y).toNat % 32 < spriteRows n ((s.getV y).toNat % 32) := by
      simp only [spriteRows]; omega
    rw [readBytes_getD _ _ _ _ hr]
    simp only [h, hr, true_and]
  · constructor
    · rintro ⟨h1, h2, -⟩
      exact absurd ⟨h1, by simp only [spriteRows] at h2; omega⟩ h
    · rintro ⟨h1, h2, -⟩
      exact absurd ⟨h1, h2⟩ h

@[simp] theorem drawSprite_disp (s : State) (ox oy : Nat) (rows : List Byte) :
    (s.drawSprite ox oy rows).disp = (Canvas.drawRows ox oy rows ⟨s.disp, false⟩).disp := rfl

@[simp] theorem drawSprite_getV (s : State) (ox oy : Nat) (rows : List Byte) (q : RegIx) :
    (s.drawSprite ox oy rows).getV q =
      if q = vF then flagByte (Canvas.drawRows ox oy rows ⟨s.disp, false⟩).hit else s.getV q := setV_getV _ _ _ _

/-- Drawing writes VF, `dirty` and pixels alone (R32, R39, R40). -/
theorem drawSprite_frame (s : State) (ox oy : Nat) (rows : List Byte) :
    ChangesOnly (fun p => p = .reg vF ∨ p = .dirty ∨ p.isPixel) s (s.drawSprite ox oy rows) := by
  intro p hp
  cases p with
  | reg q =>
    have hq : q ≠ vF := fun h => hp (.inl (by rw [h]))
    simp [Part.same, hq]
  | dirty => exact absurd (.inr (.inl rfl)) hp
  | pixel a b => exact absurd (.inr (.inr ⟨a, b, rfl⟩)) hp
  | _ => rfl

end Sys2Proof.Machine
end

