-- ==== Sys2Proof/Laws/PerInstr.lean ====
section
/-! SUPPORT. Per instruction: the encoded word matches the instruction's row of spec/opcode_table.json, the mask and match of which
are written out here from the table. -/

namespace Sys2Proof

/-- The mask and match of the instruction's row of spec/opcode_table.json. -/
def tableRow : Instr → Word × Word
  | .cls => (0xFFFF#16, 0x00E0#16)
  | .ret => (0xFFFF#16, 0x00EE#16)
  | .jp _ => (0xF000#16, 0x1000#16)
  | .call _ => (0xF000#16, 0x2000#16)
  | .seImm _ _ => (0xF000#16, 0x3000#16)
  | .sneImm _ _ => (0xF000#16, 0x4000#16)
  | .seReg _ _ => (0xF00F#16, 0x5000#16)
  | .ldImm _ _ => (0xF000#16, 0x6000#16)
  | .addImm _ _ => (0xF000#16, 0x7000#16)
  | .ldReg _ _ => (0xF00F#16, 0x8000#16)
  | .orReg _ _ => (0xF00F#16, 0x8001#16)
  | .andReg _ _ => (0xF00F#16, 0x8002#16)
  | .xorReg _ _ => (0xF00F#16, 0x8003#16)
  | .addReg _ _ => (0xF00F#16, 0x8004#16)
  | .sub _ _ => (0xF00F#16, 0x8005#16)
  | .shr _ _ => (0xF00F#16, 0x8006#16)
  | .subn _ _ => (0xF00F#16, 0x8007#16)
  | .shl _ _ => (0xF00F#16, 0x800E#16)
  | .sneReg _ _ => (0xF00F#16, 0x9000#16)
  | .ldI _ => (0xF000#16, 0xA000#16)
  | .jpV0 _ => (0xF000#16, 0xB000#16)
  | .rnd _ _ => (0xF000#16, 0xC000#16)
  | .drw _ _ _ => (0xF000#16, 0xD000#16)
  | .skp _ => (0xF0FF#16, 0xE09E#16)
  | .sknp _ => (0xF0FF#16, 0xE0A1#16)
  | .ldVxDt _ => (0xF0FF#16, 0xF007#16)
  | .ldVxK _ => (0xF0FF#16, 0xF00A#16)
  | .ldDtVx _ => (0xF0FF#16, 0xF015#16)
  | .ldStVx _ => (0xF0FF#16, 0xF018#16)
  | .addI _ => (0xF0FF#16, 0xF01E#16)
  | .ldF _ => (0xF0FF#16, 0xF029#16)
  | .ldB _ => (0xF0FF#16, 0xF033#16)
  | .ldMemRegs _ => (0xF0FF#16, 0xF055#16)
  | .ldRegsMem _ => (0xF0FF#16, 0xF065#16)
  | .sys _ => (0xF000#16, 0x0000#16)
  | .nop5 _ _ _ => (0xF000#16, 0x5000#16)
  | .nop8 _ _ _ => (0xF000#16, 0x8000#16)
  | .nop9 _ _ _ => (0xF000#16, 0x9000#16)
  | .nopE _ _ => (0xF000#16, 0xE000#16)
  | .nopF _ _ => (0xF000#16, 0xF000#16)

/-- The family's statement: the encoding of a well-formed instruction, masked, is its row's match (R113 to R119). It holds of
ill-formed terms too, since a fallback row's mask covers only the family. -/
def Laws.MatchesRow.Statement (i : Instr) : Prop := encode i &&& (tableRow i).1 = (tableRow i).2

theorem Laws.MatchesRow.cls : Laws.MatchesRow.Statement (.cls) := by
  unfold Laws.MatchesRow.Statement; decide

theorem Laws.MatchesRow.ret : Laws.MatchesRow.Statement (.ret) := by
  unfold Laws.MatchesRow.Statement; decide

theorem Laws.MatchesRow.jp (nnn : Addr) : Laws.MatchesRow.Statement (.jp nnn) :=
  maskF000_wordNNN _ (by decide) _

theorem Laws.MatchesRow.call (nnn : Addr) : Laws.MatchesRow.Statement (.call nnn) :=
  maskF000_wordNNN _ (by decide) _

theorem Laws.MatchesRow.seImm (x : RegIx) (nn : Byte) : Laws.MatchesRow.Statement (.seImm x nn) :=
  maskF000_wordXNN _ (by decide) _ _

theorem Laws.MatchesRow.sneImm (x : RegIx) (nn : Byte) : Laws.MatchesRow.Statement (.sneImm x nn) :=
  maskF000_wordXNN _ (by decide) _ _

theorem Laws.MatchesRow.seReg (x y : RegIx) : Laws.MatchesRow.Statement (.seReg x y) :=
  maskF00F_wordXYN _ (by decide) _ _ _

theorem Laws.MatchesRow.ldImm (x : RegIx) (nn : Byte) : Laws.MatchesRow.Statement (.ldImm x nn) :=
  maskF000_wordXNN _ (by decide) _ _

theorem Laws.MatchesRow.addImm (x : RegIx) (nn : Byte) : Laws.MatchesRow.Statement (.addImm x nn) :=
  maskF000_wordXNN _ (by decide) _ _

theorem Laws.MatchesRow.ldReg (x y : RegIx) : Laws.MatchesRow.Statement (.ldReg x y) :=
  maskF00F_wordXYN _ (by decide) _ _ _

theorem Laws.MatchesRow.orReg (x y : RegIx) : Laws.MatchesRow.Statement (.orReg x y) :=
  maskF00F_wordXYN _ (by decide) _ _ _

theorem Laws.MatchesRow.andReg (x y : RegIx) : Laws.MatchesRow.Statement (.andReg x y) :=
  maskF00F_wordXYN _ (by decide) _ _ _

theorem Laws.MatchesRow.xorReg (x y : RegIx) : Laws.MatchesRow.Statement (.xorReg x y) :=
  maskF00F_wordXYN _ (by decide) _ _ _

theorem Laws.MatchesRow.addReg (x y : RegIx) : Laws.MatchesRow.Statement (.addReg x y) :=
  maskF00F_wordXYN _ (by decide) _ _ _

theorem Laws.MatchesRow.sub (x y : RegIx) : Laws.MatchesRow.Statement (.sub x y) :=
  maskF00F_wordXYN _ (by decide) _ _ _

theorem Laws.MatchesRow.shr (x y : RegIx) : Laws.MatchesRow.Statement (.shr x y) :=
  maskF00F_wordXYN _ (by decide) _ _ _

theorem Laws.MatchesRow.subn (x y : RegIx) : Laws.MatchesRow.Statement (.subn x y) :=
  maskF00F_wordXYN _ (by decide) _ _ _

theorem Laws.MatchesRow.shl (x y : RegIx) : Laws.MatchesRow.Statement (.shl x y) :=
  maskF00F_wordXYN _ (by decide) _ _ _

theorem Laws.MatchesRow.sneReg (x y : RegIx) : Laws.MatchesRow.Statement (.sneReg x y) :=
  maskF00F_wordXYN _ (by decide) _ _ _

theorem Laws.MatchesRow.ldI (nnn : Addr) : Laws.MatchesRow.Statement (.ldI nnn) :=
  maskF000_wordNNN _ (by decide) _

theorem Laws.MatchesRow.jpV0 (nnn : Addr) : Laws.MatchesRow.Statement (.jpV0 nnn) :=
  maskF000_wordNNN _ (by decide) _

theorem Laws.MatchesRow.rnd (x : RegIx) (nn : Byte) : Laws.MatchesRow.Statement (.rnd x nn) :=
  maskF000_wordXNN _ (by decide) _ _

theorem Laws.MatchesRow.drw (x y : RegIx) (n : Nibble) : Laws.MatchesRow.Statement (.drw x y n) :=
  maskF000_wordXYN _ (by decide) _ _ _

theorem Laws.MatchesRow.skp (x : RegIx) : Laws.MatchesRow.Statement (.skp x) :=
  maskF0FF_wordXNN _ (by decide) _ _

theorem Laws.MatchesRow.sknp (x : RegIx) : Laws.MatchesRow.Statement (.sknp x) :=
  maskF0FF_wordXNN _ (by decide) _ _

theorem Laws.MatchesRow.ldVxDt (x : RegIx) : Laws.MatchesRow.Statement (.ldVxDt x) :=
  maskF0FF_wordXNN _ (by decide) _ _

theorem Laws.MatchesRow.ldVxK (x : RegIx) : Laws.MatchesRow.Statement (.ldVxK x) :=
  maskF0FF_wordXNN _ (by decide) _ _

theorem Laws.MatchesRow.ldDtVx (x : RegIx) : Laws.MatchesRow.Statement (.ldDtVx x) :=
  maskF0FF_wordXNN _ (by decide) _ _

theorem Laws.MatchesRow.ldStVx (x : RegIx) : Laws.MatchesRow.Statement (.ldStVx x) :=
  maskF0FF_wordXNN _ (by decide) _ _

theorem Laws.MatchesRow.addI (x : RegIx) : Laws.MatchesRow.Statement (.addI x) :=
  maskF0FF_wordXNN _ (by decide) _ _

theorem Laws.MatchesRow.ldF (x : RegIx) : Laws.MatchesRow.Statement (.ldF x) :=
  maskF0FF_wordXNN _ (by decide) _ _

theorem Laws.MatchesRow.ldB (x : RegIx) : Laws.MatchesRow.Statement (.ldB x) :=
  maskF0FF_wordXNN _ (by decide) _ _

theorem Laws.MatchesRow.ldMemRegs (x : RegIx) : Laws.MatchesRow.Statement (.ldMemRegs x) :=
  maskF0FF_wordXNN _ (by decide) _ _

theorem Laws.MatchesRow.ldRegsMem (x : RegIx) : Laws.MatchesRow.Statement (.ldRegsMem x) :=
  maskF0FF_wordXNN _ (by decide) _ _

theorem Laws.MatchesRow.sys (nnn : Addr) : Laws.MatchesRow.Statement (.sys nnn) :=
  maskF000_wordNNN _ (by decide) _

theorem Laws.MatchesRow.nop5 (x y : RegIx) (n : Nibble) : Laws.MatchesRow.Statement (.nop5 x y n) :=
  maskF000_wordXYN _ (by decide) _ _ _

theorem Laws.MatchesRow.nop8 (x y : RegIx) (n : Nibble) : Laws.MatchesRow.Statement (.nop8 x y n) :=
  maskF000_wordXYN _ (by decide) _ _ _

theorem Laws.MatchesRow.nop9 (x y : RegIx) (n : Nibble) : Laws.MatchesRow.Statement (.nop9 x y n) :=
  maskF000_wordXYN _ (by decide) _ _ _

theorem Laws.MatchesRow.nopE (x : RegIx) (nn : Byte) : Laws.MatchesRow.Statement (.nopE x nn) :=
  maskF000_wordXNN _ (by decide) _ _

theorem Laws.MatchesRow.nopF (x : RegIx) (nn : Byte) : Laws.MatchesRow.Statement (.nopF x nn) :=
  maskF000_wordXNN _ (by decide) _ _

end Sys2Proof
end

