-- ==== Sys2Proof/Laws/Run.lean ====
section
/-! SUPPORT. Sequences of host operations and the end of a run: one equation per case of `runToEnd`, and what each end says. -/

namespace Sys2Proof.Machine

variable {s : State} {op : HostOp} {ops : List HostOp}

@[simp] theorem runOps_nil (s : State) : runOps [] s = s := rfl
@[simp] theorem runOps_cons (op : HostOp) (ops : List HostOp) (s : State) :
    runOps (op :: ops) s = runOps ops (perform op s).1 := rfl

theorem runOps_append (ps qs : List HostOp) (s : State) : runOps (ps ++ qs) s = runOps qs (runOps ps s) := by
  induction ps generalizing s with
  | nil => rfl
  | cons op ps ih => exact ih _

/-- An operation ends the run exactly where it is a `step` that faults or refuses. -/
theorem endOf_perform_eq_some (op : HostOp) (s : State) (e : RunEnd) : endOf op (perform op s).2 = some e ↔
    op = .step ∧ ((∃ f, step s = .fault f ∧ e = .fault f) ∨ ∃ r, step s = .refused r ∧ e = .refused r) := by
  cases op <;> simp [endOf]
  cases h : step s <;> simp [perform, replyOf, h, eq_comm]

theorem runToEnd_nil_of_halt (h : s.atHalt = true) : runToEnd [] s = ⟨s, .halt, []⟩ := by simp [runToEnd, h]

theorem runToEnd_nil_of_not_halt (h : s.atHalt = false) : runToEnd [] s = ⟨s, .hostStopped, []⟩ := by simp [runToEnd, h]

/-- At the halt the run has ended, whatever the host was to do. -/
theorem runToEnd_of_halt (ops : List HostOp) (h : s.atHalt = true) : runToEnd ops s = ⟨s, .halt, ops⟩ := by
  cases ops <;> simp [runToEnd, h]

theorem runToEnd_cons_of_end {e : RunEnd} (h : s.atHalt = false) (he : endOf op (perform op s).2 = some e) :
    runToEnd (op :: ops) s = ⟨(perform op s).1, e, ops⟩ := by simp [runToEnd, h, he]

theorem runToEnd_cons_of_none (h : s.atHalt = false) (he : endOf op (perform op s).2 = none) :
    runToEnd (op :: ops) s = runToEnd ops (perform op s).1 := by simp [runToEnd, h, he]

/-- The case analysis of a run, said once: it ends at the halt, at once when the host issues nothing, at its first operation, or
goes on. -/
theorem runToEnd_cases (ops : List HostOp) (s : State) :
    (s.atHalt = true ∧ runToEnd ops s = ⟨s, .halt, ops⟩) ∨
    (s.atHalt = false ∧ ops = [] ∧ runToEnd ops s = ⟨s, .hostStopped, []⟩) ∨
    (s.atHalt = false ∧ ∃ op qs, ops = op :: qs ∧
      ((∃ e, endOf op (perform op s).2 = some e ∧ runToEnd ops s = ⟨(perform op s).1, e, qs⟩) ∨
       (endOf op (perform op s).2 = none ∧ runToEnd ops s = runToEnd qs (perform op s).1))) := by
  cases h : s.atHalt with
  | true => exact .inl ⟨rfl, runToEnd_of_halt ops h⟩
  | false =>
    cases ops with
    | nil => exact .inr (.inl ⟨rfl, rfl, runToEnd_nil_of_not_halt h⟩)
    | cons op qs =>
      refine .inr (.inr ⟨rfl, op, qs, rfl, ?_⟩)
      cases he : endOf op (perform op s).2 with
      | some e => exact .inl ⟨e, rfl, runToEnd_cons_of_end h he⟩
      | none => exact .inr ⟨rfl, runToEnd_cons_of_none h he⟩

end Sys2Proof.Machine
end

