-- ==== Sys2Proof/Tests/Slice0.lean ====
section
/-! SUPPORT. Tests: the checks of WellFormed, words written out from the encodings, one step per vector of 95_test_vectors.md, and a
witness for each statement that has hypotheses. Expected values come from the spec's vectors and examples, named in each comment. -/

namespace Sys2Proof.Machine.Tests

/-- One value of the next state, if there is one. -/
def obs {α : Type} (r : Result) (f : State → α) : Option α :=
  match r with
  | .next t => some (f t)
  | .fault _ => none
  | .refused _ => none

/-- The fault, if there is one. -/
def faultOf (r : Result) : Option Fault :=
  match r with
  | .fault f => some f
  | .next _ => none
  | .refused _ => none

/-- Step a state with a word placed at its `pc`. -/
def run (w : Nat) (s : State) : Result := step (s.withFetchWord 16 w)

/-- The reset state with registers X and Y set. -/
def regs (x : RegIx) (a : Byte) (y : RegIx) (b : Byte) : State := (State.reset.setV x a).setV y b

/-! ### Ill-formed terms are refused (R121) -/

theorem test_wellFormed_sys : wellFormed (.sys 0x0E0) = false ∧ wellFormed (.sys 0x0EE) = false := by decide
theorem test_wellFormed_nop5 : wellFormed (.nop5 1 2 0) = false := by decide
theorem test_wellFormed_nop8 : wellFormed (.nop8 1 2 0xE) = false ∧ wellFormed (.nop8 1 2 7) = false := by decide
theorem test_wellFormed_nop9 : wellFormed (.nop9 1 2 0) = false := by decide
theorem test_wellFormed_nopE : wellFormed (.nopE 1 0x9E) = false ∧ wellFormed (.nopE 1 0xA1) = false := by decide
theorem test_wellFormed_nopF : wellFormed (.nopF 1 0x65) = false ∧ wellFormed (.nopF 1 0x0A) = false := by decide
theorem test_wellFormed_others : wellFormed (.sys 0x0E1) = true ∧ wellFormed (.nop8 0 0 8) = true ∧ wellFormed .cls = true := by
  decide

/-! ### Words written out from the patterns of 30_encoding.md R113, one per constructor -/

theorem test_decode_flow :
    [0x00EE, 0x1234, 0x2300, 0x3342, 0x4342, 0x5120, 0x9120, 0xB300].map (decodeTableWord 16) =
    [some .ret, some (.jp 0x234), some (.call 0x300), some (.seImm 3 0x42), some (.sneImm 3 0x42), some (.seReg 1 2),
      some (.sneReg 1 2), some (.jpV0 0x300)] := by decide

theorem test_decode_alu :
    [0x6A2B, 0x7003, 0x8120, 0x8121, 0x8122, 0x8123, 0x8124, 0x8125, 0x8126, 0x8127, 0x812E, 0xC30F].map (decodeTableWord 16) =
    [some (.ldImm 0xA 0x2B), some (.addImm 0 3), some (.ldReg 1 2), some (.orReg 1 2), some (.andReg 1 2), some (.xorReg 1 2),
      some (.addReg 1 2), some (.sub 1 2), some (.shr 1 2), some (.subn 1 2), some (.shl 1 2), some (.rnd 3 0x0F)] := by decide

theorem test_decode_index_display :
    [0xA202, 0xF21E, 0xF529, 0xF033, 0xF255, 0xF265, 0x00E0, 0xD125].map (decodeTableWord 16) =
    [some (.ldI 0x202), some (.addI 2), some (.ldF 5), some (.ldB 0), some (.ldMemRegs 2), some (.ldRegsMem 2), some .cls,
      some (.drw 1 2 5)] := by decide

theorem test_decode_input :
    [0xE19E, 0xE1A1, 0xF407, 0xF30A, 0xF215, 0xF218].map (decodeTableWord 16) =
    [some (.skp 1), some (.sknp 1), some (.ldVxDt 4), some (.ldVxK 3), some (.ldDtVx 2), some (.ldStVx 2)] := by decide

theorem test_decode_noops :
    [0x0123, 0x5121, 0x8128, 0x9123, 0xE19F, 0xF1FF].map (decodeTableWord 16) =
    [some (.sys 0x123), some (.nop5 1 2 1), some (.nop8 1 2 8), some (.nop9 1 2 3), some (.nopE 1 0x9F),
      some (.nopF 1 0xFF)] := by decide

theorem test_encode_bytes : encodeBytes (.ldI 0x202) = [0xA2, 0x02] ∧ encodeBytes (.drw 1 2 5) = [0xD1, 0x25] := by decide

theorem test_decode_refuses_short : decodeBytes [0x12] = .error .truncated ∧ decodeTableWord 32 0x1234 = none := ⟨rfl, by decide⟩

/-! ### Reset and fetch (V1, V6 to V8) -/

/-- V1. -/
theorem test_reset : State.reset.pc = 0x200 ∧ State.reset.readByte 0x000 = 0xF0 ∧ State.reset.readByte 0x04F = 0x80 ∧
    State.reset.readByte 0x050 = 0 ∧ State.reset.readByte 0xFFF = 0 := by decide

/-- V1: glyph 0 and glyph F (R47). -/
theorem test_font : State.reset.readBytes 0 5 = [0xF0, 0x90, 0x90, 0x90, 0xF0] ∧
    State.reset.readBytes 0x4B 5 = [0xF0, 0x80, 0xF0, 0x80, 0x80] := by decide

/-- V6. -/
theorem test_fetch_top : obs (run 0x1200 (State.reset.jump 0xFFE)) State.pc = some 0x200 := by decide

/-- V7. -/
theorem test_fetch_fault : faultOf (step (State.reset.jump 0xFFF)) = some .outOfBounds ∧
    perform .step (State.reset.jump 0xFFF) = (State.reset.jump 0xFFF, .fault .outOfBounds) := ⟨by decide, rfl⟩

/-- V8. -/
theorem test_fetch_odd : obs (run 0x6007 (State.reset.jump 0x201)) (fun t => (t.getV 0, t.pc)) = some (7, 0x203) := by decide

/-! ### No-ops (V9 to V14) -/

/-- V9, and R145's first corner case. -/
theorem test_sys : obs (run 0x0123 State.reset) (fun t => (t.pc, t.sp)) = some (0x202, 0) ∧
    obs (step State.reset) (fun t => (t.pc, t.dirty)) = some (0x202, false) := by decide
/-- V10. -/
theorem test_nop5 : obs (run 0x5121 (regs 1 7 2 7)) State.pc = some 0x202 := by decide
/-- V12. -/
theorem test_nop8 : obs (run 0x8128 (regs 1 7 15 9)) (fun t => (t.pc, t.getV 1, t.getV 15)) = some (0x202, 7, 9) := by decide
/-- V11. -/
theorem test_nop9 : obs (run 0x9123 (regs 1 7 2 8)) State.pc = some 0x202 := by decide
/-- V13. -/
theorem test_nopE : obs (run 0xE19F State.reset) State.pc = some 0x202 := by decide
/-- V13. -/
theorem test_nopF : obs (run 0xF100 State.reset) (fun t => (t.pc, t.index)) = some (0x202, 0) := by decide

/-! ### Control transfer (V15 to V29) -/

/-- V17. -/
theorem test_ret : obs (run 0x00EE (State.reset.push 0x204)) (fun t => (t.pc, t.stack)) = some (0x204, []) := by decide
/-- V18. -/
theorem test_ret_underflow : faultOf (run 0x00EE State.reset) = some .stackUnderflow := by decide
/-- V29. -/
theorem test_jp : obs (run 0x1FFF State.reset) State.pc = some 0xFFF := by decide
/-- V16. -/
theorem test_call : obs (run 0x2300 (State.reset.jump 0x202)) (fun t => (t.pc, t.stack, t.stackEntry 0)) =
    some (0x300, [0x204], some 0x204) := by decide
/-- V19, V20: the 17th nested call faults at capacity 16 and not at capacity 17. -/
theorem test_call_overflow :
    faultOf (run 0x2500 { State.reset with stack := List.replicate 16 0x202 }) = some .stackOverflow ∧
    obs (callWith 17 0x500 { State.reset with stack := List.replicate 16 0x202 }) State.sp = some 17 := by decide
/-- V21. -/
theorem test_seImm : obs (run 0x3342 (regs 3 0x42 0 0)) State.pc = some 0x204 := by decide
/-- V25: a taken skip at the end of memory. -/
theorem test_seImm_top : obs (run 0x3000 (State.reset.jump 0xFFE)) State.pc = some 0x1002 := by decide
/-- V21. -/
theorem test_sneImm : obs (run 0x4342 (regs 3 0x42 0 0)) State.pc = some 0x202 := by decide
/-- V24, R166's example. -/
theorem test_seReg : obs (run 0x5440 (regs 4 9 0 0)) State.pc = some 0x204 := by decide
/-- V24, R167's example. -/
theorem test_sneReg : obs (run 0x9120 (regs 1 7 2 8)) State.pc = some 0x204 := by decide
/-- V27. -/
theorem test_jpV0_top : obs (run 0xBFFF (regs 0 0xFF 1 0)) State.pc = some 0x10FE := by decide
/-- V28: the register is V0, whatever bits 11:8 are. -/
theorem test_jpV0_register : obs (run 0xB5F0 (regs 0 2 5 0x80)) State.pc = some 0x5F2 := by decide

/-! ### Register loads and the ALU (V30 to V55) -/

/-- V30. -/
theorem test_ldImm : obs (run 0x6F77 State.reset) (fun t => t.getV 15) = some 0x77 := by decide
/-- V31. -/
theorem test_addImm : obs (run 0x7003 (regs 0 0xFE 15 5)) (fun t => (t.getV 0, t.getV 15)) = some (1, 5) := by decide
/-- V33. -/
theorem test_ldReg : obs (run 0x8120 (regs 2 0x33 1 0)) (fun t => t.getV 1) = some 0x33 := by decide
/-- V34. -/
theorem test_orReg : obs (run 0x8121 ((regs 1 0x0F 2 0xF0).setV 15 9)) (fun t => (t.getV 1, t.getV 15)) = some (0xFF, 9) := by decide
/-- V34. -/
theorem test_andReg : obs (run 0x8122 ((regs 1 0x0F 2 0xF0).setV 15 9)) (fun t => (t.getV 1, t.getV 15)) = some (0, 9) := by decide
/-- V35. -/
theorem test_xorReg : obs (run 0x8113 (regs 1 0xAB 0 0)) (fun t => t.getV 1) = some 0 := by decide
/-- V36. -/
theorem test_addReg : obs (run 0x8124 (regs 1 0xFF 2 1)) (fun t => (t.getV 1, t.getV 15)) = some (0, 1) := by decide
/-- V39, V40: VF as destination, VF as operand. -/
theorem test_addReg_vF : obs (run 0x8F14 (regs 15 0x10 1 0x20)) (fun t => t.getV 15) = some 0 ∧
    obs (run 0x81F4 (regs 1 0 15 1)) (fun t => (t.getV 1, t.getV 15)) = some (1, 0) := by decide
/-- V41. -/
theorem test_sub : obs (run 0x8125 (regs 1 0 2 1)) (fun t => (t.getV 1, t.getV 15)) = some (0xFF, 0) := by decide
/-- V42, V43. -/
theorem test_sub_equal : obs (run 0x8115 (regs 1 7 0 0)) (fun t => (t.getV 1, t.getV 15)) = some (0, 1) ∧
    obs (run 0x8F15 (regs 15 5 1 3)) (fun t => t.getV 15) = some 1 := by decide
/-- V44. -/
theorem test_shr : obs (run 0x8126 (regs 1 5 2 0x0C)) (fun t => (t.getV 1, t.getV 15)) = some (2, 1) := by decide
/-- V45: the other `SHIFT_SOURCE`. -/
theorem test_shr_vy : (shiftRightInto 1 (shiftOperand .vy 1 2) (regs 1 5 2 0x0C)).getV 1 = 6 ∧
    (shiftRightInto 1 (shiftOperand .vy 1 2) (regs 1 5 2 0x0C)).getV 15 = 0 := by decide
/-- V49. -/
theorem test_subn : obs (run 0x8127 (regs 1 5 2 3)) (fun t => (t.getV 1, t.getV 15)) = some (0xFE, 0) := by decide
/-- V50. -/
theorem test_shl : obs (run 0x812E (regs 1 0x81 2 0)) (fun t => (t.getV 1, t.getV 15)) = some (2, 1) := by decide
/-- V52: the other `SHIFT_SOURCE`. -/
theorem test_shl_vy : (shiftLeftInto 1 (shiftOperand .vy 1 2) (regs 1 1 2 0x80)).getV 1 = 0 ∧
    (shiftLeftInto 1 (shiftOperand .vy 1 2) (regs 1 1 2 0x80)).getV 15 = 1 := by decide
/-- V53, V55: for every draw, the register is the draw masked. -/
theorem test_rnd (s : State) : obs (exec (.rnd 3 0x0F) s) (fun t => t.getV 3) = some (Config.rand s.draws &&& 0x0F) := by
  simp [obs, exec, execRnd, State.draw]
/-- V54. -/
theorem test_rnd_zero (s : State) : obs (exec (.rnd 3 0) s) (fun t => (t.getV 3, t.draws)) = some (0, s.draws + 1) := by
  simp [obs, exec, execRnd, State.draw]

/-! ### Index register and memory (V56 to V77) -/

/-- V56. -/
theorem test_ldI : obs (run 0xA123 State.reset) State.index = some 0x123 := by decide
/-- V57. -/
theorem test_addI : obs (run 0xF21E ((regs 2 0x10 15 7).setIndex 0x100)) (fun t => (t.index, t.getV 15)) = some (0x110, 7) := by
  decide
/-- V58, V61: both modes. -/
theorem test_addI_modes : (addIndexWith .wrap16 2 ((regs 2 0x10 15 0).setIndex 0xFFA)).index = 0x100A ∧
    (addIndexWith .mask12 2 ((regs 2 0x10 15 0).setIndex 0xFFA)).index = 0x00A ∧
    (addIndexWith .mask12 15 ((regs 15 0x20 0 0).setIndex 0xFF0)).getV 15 = 1 := by decide
/-- V62, V63. -/
theorem test_ldF : obs (run 0xF529 (regs 5 0x1A 0 0)) State.index = some 0x032 ∧
    obs (run 0xF529 (regs 5 0x0F 0 0)) State.index = some 0x04B := by decide
/-- L1-9. -/
theorem test_ldB : obs (run 0xF033 ((regs 0 156 1 0).setIndex 0x300)) (fun t => (t.readBytes 0x300 3, t.index)) =
    some ([1, 5, 6], 0x300) := by decide
/-- V67, V68, V69. -/
theorem test_ldB_bounds : faultOf (run 0xF033 ((regs 0 7 1 0).setIndex 0xFFE)) = some .outOfBounds ∧
    obs (run 0xF033 ((regs 0 7 1 0).setIndex 0x010)) (fun t => t.readBytes 0x010 3) = some [0, 0, 7] ∧
    faultOf (storeBcdWith .fault 0 ((regs 0 7 1 0).setIndex 0x010)) = some .outOfBounds := by decide
/-- V70. -/
theorem test_ldMemRegs : obs (run 0xF255 (((regs 0 1 1 2).setV 2 3).setIndex 0x300)) (fun t => (t.readBytes 0x300 4, t.index)) =
    some ([1, 2, 3, 0], 0x303) := by decide
/-- V72, V73. -/
theorem test_ldMemRegs_top : obs (run 0xFF55 ((regs 0 9 15 0x0F).setIndex 0xFF0)) (fun t => (t.readByte 0xFFF, t.index)) =
    some (0x0F, 0x1000) ∧ faultOf (run 0xFF55 (State.reset.setIndex 0xFF1)) = some .outOfBounds := by decide
/-- V76. -/
theorem test_ldRegsMem : obs (run 0xF465 State.reset) (fun t => ([t.getV 0, t.getV 1, t.getV 4, t.getV 5], t.index)) =
    some ([0xF0, 0x90, 0xF0, 0], 0x005) := by decide
/-- V74, V77. -/
theorem test_ldRegsMem_top : faultOf (run 0xF065 (State.reset.setIndex 0x1000)) = some .outOfBounds ∧
    obs (run 0xFF65 ((State.reset.writeByte 0x30F 0x99).setIndex 0x300)) (fun t => (t.getV 15, t.index)) = some (0x99, 0x310) := by
  decide

/-! ### Display (V78 to V87) -/

/-- V78. -/
theorem test_cls : obs (run 0x00E0 { State.reset with disp := Display.off.setPixel 63 31 true })
    (fun t => (t.disp.pixel 63 31, t.dirty)) = some (false, true) := by decide
/-- V79: the origin wraps, the sprite does not (L1-6, V86). -/
theorem test_drw_origin :
    obs (run 0xD121 (((regs 1 0x45 2 0x21).writeByte 0x300 0x80).setIndex 0x300)) (fun t => (t.disp.pixel 5 1, t.getV 15)) =
      some (true, 0) ∧
    obs (run 0xD121 (((regs 1 60 2 0).writeByte 0x300 0xFF).setIndex 0x300))
      (fun t => [t.disp.pixel 59 0, t.disp.pixel 60 0, t.disp.pixel 63 0, t.disp.pixel 0 0, t.disp.pixel 0 1]) =
      some [false, true, true, false, false] := by decide
/-- V84 (bits, collision), V81 (fault), V82 (rows below the display are not read). -/
theorem test_drw_collision :
    obs (run 0xD121 (({ State.reset with disp := Display.off.setPixel 3 0 true }.writeByte 0x300 0x30).setIndex 0x300))
      (fun t => (t.disp.pixel 2 0, t.disp.pixel 3 0, t.getV 15, t.dirty)) = some (true, false, 1, true) ∧
    faultOf (run 0xD123 (State.reset.setIndex 0xFFE)) = some .outOfBounds ∧
    obs (run 0xD123 (((regs 1 0 2 30).writeByte 0xFFF 0x80).setIndex 0xFFE)) (fun t => (t.disp.pixel 0 31, t.disp.pixel 0 30)) =
      some (true, false) := by decide

/-! ### Keys and timers (V88 to V98) -/

/-- V88, V90. -/
theorem test_skp : obs (run 0xE19E ((regs 1 5 0 0).setKeyState 5 true)) State.pc = some 0x204 ∧
    obs (run 0xE19E ((regs 1 0x15 0 0).setKeyState 5 true)) State.pc = some 0x202 := by decide
/-- V89, V90. -/
theorem test_sknp : obs (run 0xE1A1 (regs 1 5 0 0)) State.pc = some 0x204 ∧
    obs (run 0xE1A1 ((regs 1 0x15 0 0).setKeyState 5 true)) State.pc = some 0x204 := by decide
/-- V91. -/
theorem test_ldVxDt : obs (run 0xF407 { State.reset with dt := 0x3C }) (fun t => t.getV 4) = some 0x3C := by decide
/-- V96. -/
theorem test_ldVxK_wait : obs (run 0xF30A State.reset) (fun t => (t.seeking, t.pc, t.getV 3)) = some (true, 0x200, 0) := by decide
/-- V97, V98. -/
theorem test_ldVxK_resolve :
    obs (run 0xF30A ((({ State.reset with seeking := true } : State).resolveKey 2).resolveKey 9))
      (fun t => (t.getV 3, t.captured, t.seeking, t.pc)) = some (9, none, false, 0x202) ∧
    obs (run 0xFF0A (({ State.reset with seeking := true } : State).resolveKey 0xC)) (fun t => t.getV 15) = some 0x0C := by decide
/-- V92. -/
theorem test_ldDtVx : obs (run 0xF215 (regs 2 0x3C 0 0)) (fun t => (t.dt, t.tickTimers.dt, t.st)) = some (0x3C, 0x3B, 0) := by
  decide
/-- V93. -/
theorem test_ldStVx : obs (run 0xF218 (regs 2 5 0 0)) (fun t => (t.st, t.dt)) = some (5, 0) := by decide

/-! ### Host operations (V2 to V4, V94 to V100) -/

/-- V94. -/
theorem test_tick : (perform .tickTimers { State.reset with st := 3 }).1.dt = 0 ∧
    (perform .tickTimers { State.reset with st := 3 }).1.st = 2 := by decide
/-- V95, V99. -/
theorem test_keys : (perform (.resolveKey 4) State.reset).1.captured = none ∧
    (perform (.setKeyState 7 true) State.reset).1.key[7] = true := by decide
/-- V100. -/
theorem test_snapshot : (perform .snapshot { State.reset with dirty := true }).2 = .picture Display.off true ∧
    (perform .clearDirty { State.reset with dirty := true }).1.dirty = false := ⟨rfl, rfl⟩
/-- L1-10, with conflict C2's value of `pc`, and V2. -/
theorem test_load : (runOps [.load [0xA2, 0x02, 0x60, 0x05], .step, .step] State.reset).pc = 0x204 ∧
    (runOps [.load [0xA2, 0x02, 0x60, 0x05], .step, .step] State.reset).index = 0x202 ∧
    (perform (.load []) State.reset).1 = State.reset := ⟨by decide, by decide, rfl⟩
/-- V18: what a faulting instruction leaves (R274). -/
theorem test_fault_leaves : (perform .step (State.reset.withFetchWord 16 0x00EE)).1.pc = 0x202 ∧
    (perform .step (State.reset.withFetchWord 16 0x00EE)).2 = .fault .stackUnderflow := by decide
/-- V15: the halt of R146, R147. -/
theorem test_halt : (State.reset.withFetchWord 16 0x1200).atHalt = true ∧ State.reset.atHalt = false := by decide
/-- R147: a load that fails ends no run; the first faulting step does, and the operations after it are left over. -/
theorem test_run_fault : (runToEnd [.load [0x00, 0xEE], .tickTimers, .step, .step] State.reset).ending = .fault .stackUnderflow ∧
    (runToEnd [.load [0x00, 0xEE], .tickTimers, .step, .step] State.reset).rest = [.step] ∧
    endOf (.load []) (.fault .romTooLarge) = none := by decide
/-- R147: the self-jump ends the run before another step, and not while seeking; else the host ends it. -/
theorem test_run_halt : (runToEnd [.load [0x12, 0x00], .step] State.reset).ending = .halt ∧
    (runToEnd [] { State.reset.withFetchWord 16 0x1200 with seeking := true }).ending = .hostStopped ∧
    (runToEnd [.step] State.reset).ending = .hostStopped := by decide

/-! ### Witnesses: the hypotheses of each statement hold of something, each clause at a boundary -/

theorem witness_DecodeOfEncode : wellFormed (.sys 0x0DF) = true ∧ wellFormed (.nop8 15 15 0xF) = true := by decide

theorem witness_NoOpSpaceIsExact : (State.reset.withFetchWord 16 0x00E1).fetch = some 0x00E1 ∧
    (decode 0x00E1).isNoOp = true := by decide

theorem witness_StepRunsDecodedInstruction :
    0xFFF < (State.reset.jump 0xFFF).pc.toNat + 1 ∧ (State.reset.jump 0xFFE).pc.toNat + 1 ≤ 0xFFF ∧
    (0 : Word).toNat = 256 * ((State.reset.jump 0xFFE).readByte 0xFFE).toNat + ((State.reset.jump 0xFFE).readByte 0xFFF).toNat := by
  decide

theorem witness_OnlyListedFaults : faultOf (exec .ret State.reset) = some .stackUnderflow ∧
    faultOf (exec (.call 0) { State.reset with stack := List.replicate 16 0 }) = some .stackOverflow ∧
    faultOf (exec (.ldB 0) (State.reset.setIndex 0xFFE)) = some .outOfBounds ∧
    faultOf (exec (.ldMemRegs 0) (State.reset.setIndex 0x1000)) = some .outOfBounds ∧
    faultOf (exec (.ldRegsMem 0) (State.reset.setIndex 0x1000)) = some .outOfBounds ∧
    faultOf (exec (.drw 0 0 1) (State.reset.setIndex 0x1000)) = some .outOfBounds := by decide

theorem witness_FaultingStepLeaves :
    faultOf (step (State.reset.jump 0xFFF)) = some .outOfBounds ∧ (State.reset.jump 0xFFF).fetch = none ∧
    faultOf (run 0x00EE State.reset) = some .stackUnderflow ∧ (State.reset.withFetchWord 16 0x00EE).fetch ≠ none := by decide

theorem witness_SelfJumpIsFixedPoint :
    (State.reset.withFetchWord 16 0x1200).fetch = some (encode (.jp 0x200)) ∧
    (State.reset.withFetchWord 16 0x1200).pc.toNat = (0x200 : Addr).toNat ∧
    ((State.reset.jump 0xFFE).withFetchWord 16 0x1FFE).atHalt = true := by decide

theorem witness_PlacedWordRuns : 0xFFFF < 65536 ∧ (State.reset.jump 0xFFE).pc.toNat ≤ 0xFFE := by decide

theorem witness_CallPushesAndJumps : ({ State.reset with stack := List.replicate 16 0 } : State).sp = stackDepth ∧
    ({ State.reset with stack := List.replicate 15 0 } : State).sp < stackDepth := by decide

theorem witness_ReturnPopsIntoPc : State.reset.sp = 0 ∧ (State.reset.withFetchWord 16 0x00EE).sp = 0 ∧
    (State.reset.withFetchWord 16 0x00EE).fetch = some 0x00EE ∧ (State.reset.push 0x204).sp = 0 + 1 := by decide

theorem witness_CallThenReturn : ({ State.reset with stack := List.replicate 15 0 } : State).sp < stackDepth ∧
    ∃ t u : State, exec (.call 0x300) { State.reset with stack := List.replicate 15 0 } = .next t ∧ u.stack = t.stack :=
  ⟨by decide, _, _, rfl, rfl⟩

theorem witness_SkipOnRegisters : (1 : Nibble) ≠ 0 ∧ (15 : Nibble) ≠ 0 := by decide

theorem witness_flag_results : (0 : RegIx) ≠ vF ∧ (14 : RegIx) ≠ vF := by decide

theorem witness_ShiftsEvictIntoFlag : 0xFF = ((regs 1 0xFF 2 0).getV (match shiftSource with | .vx => 1 | .vy => 2)).toNat := by
  decide

theorem witness_AddIndexOverflow :
    ((regs 2 1 0 0).setIndex 0xFFE).index.toNat + (((regs 2 1 0 0).setIndex 0xFFE).getV 2).toNat < 0x1000 ∧
    0x1000 ≤ ((regs 2 1 0 0).setIndex 0xFFF).index.toNat + (((regs 2 1 0 0).setIndex 0xFFF).getV 2).toNat := by decide

theorem witness_StoreBcd : 0xFFF < (State.reset.setIndex 0xFFE).index.toNat + 2 ∧
    (State.reset.setIndex 0xFFD).index.toNat + 2 ≤ 0xFFF ∧
    fontRefuses fontWritePolicy (State.reset.setIndex 0xFFD).index.toNat = false := by decide

theorem witness_StoreBlock_LoadBlock : 0xFFF < (State.reset.setIndex 0xFF1).index.toNat + (15 : RegIx).val ∧
    (State.reset.setIndex 0xFF0).index.toNat + (15 : RegIx).val ≤ 0xFFF ∧
    fontRefuses fontWritePolicy (State.reset.setIndex 0xFF0).index.toNat = false := by decide

theorem witness_StoreBlockThenLoad : ∃ t u : State, exec (.ldMemRegs 15) (State.reset.setIndex 0xFF0) = .next t ∧
    (∀ a, u.readByte a = t.readByte a) ∧ u.index = (State.reset.setIndex 0xFF0).index :=
  ⟨_, State.setIndex _ 0xFF0,
    (storeBlockWith_eq_next (s := State.reset.setIndex 0xFF0) fontWritePolicy 15).2 ⟨by decide, rfl⟩, fun _ => rfl, rfl⟩

theorem witness_StoreSeenByNextFetch : 1 ≤ (1 : RegIx).val ∧
    (State.reset.setIndex 0x200).index = (State.reset.setIndex 0x200).pc ∧
    ∃ t, exec (.ldMemRegs 1) (State.reset.setIndex 0x200) = .next t :=
  ⟨by decide, rfl, _, (storeBlockWith_eq_next (s := State.reset.setIndex 0x200) fontWritePolicy 1).2 ⟨by decide, rfl⟩⟩

theorem witness_DrawXorsSprite :
    (2 = min (2 : Nibble).toNat (32 - ((State.reset.setIndex 0xFFF).getV 0).toNat % 32) ∧
      0 < 2 ∧ 0xFFF < (State.reset.setIndex 0xFFF).index.toNat + 2 - 1) ∧
    (0 = min (0 : Nibble).toNat (32 - ((State.reset.setIndex 0xFFFF).getV 0).toNat % 32)) ∧
    (2 = min (2 : Nibble).toNat (32 - ((State.reset.setIndex 0xFFE).getV 0).toNat % 32) ∧
      (State.reset.setIndex 0xFFE).index.toNat + 2 - 1 ≤ 0xFFF) := by decide

theorem witness_DrawTwiceRestores : ∃ t, exec (.drw 0 1 5) State.reset = .next t ∧ t.getV 0 = State.reset.getV 0 ∧
    t.getV 1 = State.reset.getV 1 :=
  ⟨_, (execDrw_eq_next _ _ _).2 ⟨by decide, rfl⟩, by simp [vF], by simp [vF]⟩

theorem witness_KeySkips :
    (∃ k : KeyIx, ((regs 1 15 0 0).getV 1).toNat = k.val ∧ ((regs 1 15 0 0).setKeyState 15 true).key[k] = true) ∧
    ¬ (∃ k : KeyIx, ((regs 1 16 0 0).getV 1).toNat = k.val ∧ ((regs 1 16 0 0).setKeyState 15 true).key[k] = true) := by decide

theorem witness_WaitKeyTransitions : State.reset.captured = none ∧
    ({ State.reset with captured := some 15 } : State).captured = some 15 ∧
    (State.reset.withFetchWord 16 0xFF0A).captured = none ∧
    (State.reset.withFetchWord 16 0xFF0A).fetch = some (wordXNN 0xF 15 0x0A#8) := by decide

theorem witness_InstructionFrame : ∃ t, exec (.ldImm 15 0xFF) State.reset = .next t := ⟨_, rfl⟩

theorem witness_AudioTimerAndDirtyAreUnread : (∃ t, exec (.ldStVx 3) State.reset = .next t) ∧
    faultOf (exec .ret State.reset) = some .stackUnderflow := ⟨⟨_, rfl⟩, by decide⟩

theorem witness_KeysAreReadBySkipsAlone : (∀ x, Instr.ldVxK 3 ≠ .skp x ∧ Instr.ldVxK 3 ≠ .sknp x) ∧
    (∃ t, exec (.ldVxK 3) State.reset = .next t) := ⟨by decide, _, rfl⟩

theorem witness_KeyOperations : ({ State.reset with seeking := true } : State).seeking = true ∧ State.reset.seeking = false := by
  decide

theorem witness_SnapshotAndClearDirty : ∃ t, exec .cls State.reset = .next t := ⟨_, rfl⟩

theorem witness_LoadWritesProgram : 3584 < (List.replicate 3585 (0 : Byte)).length ∧
    (List.replicate 3584 (0 : Byte)).length ≤ 3584 ∧ 3583 < (List.replicate 3584 (0 : Byte)).length := by
  simp only [List.length_replicate]; decide

theorem witness_ConstructionResets : State.reset = State.reset ∧ 79 < font.length ∧ font.length ≤ 80 := by decide

theorem witness_reset_step : ∃ t, step State.reset = .next t :=
  ⟨State.reset.advance, rfl⟩

/-- The reset state meets the premises of the three step invariants (their statements say that a step keeps them). -/
theorem witness_step_invariants : State.reset.mem.wf ∧ BoundsInv State.reset ∧ KeyWaitInv State.reset :=
  ⟨by decide, ⟨by decide, by simp [State.reset], by decide⟩, by simp [State.reset], by simp [State.reset]⟩

/-- A state that seeks, at an FX0A, meets the key-wait invariant too. -/
theorem witness_UnresolvedWaitHolds :
    (∀ op ∈ [HostOp.step, .tickTimers, .setKeyState 7 true], op.keepsWaiting = true) ∧
    KeyWaitInv { State.reset.withFetchWord 16 0xF30A with seeking := true } ∧
    ({ State.reset.withFetchWord 16 0xF30A with seeking := true } : State).seeking = true ∧
    ({ State.reset.withFetchWord 16 0xF30A with seeking := true } : State).captured = none :=
  ⟨by decide, ⟨fun h => absurd rfl h, fun _ => ⟨0xF30A, 3, by decide, by decide⟩⟩, rfl, rfl⟩

theorem witness_HostOperationsKeepInvariants :
    (HostOp.isLoad (.load [0x12, 0x00]) = true → State.reset.seeking = false) ∧ CoreInv State.reset :=
  ⟨fun _ => rfl, witness_step_invariants⟩

theorem witness_EveryRunMeetsInvariants : ∀ op ∈ [HostOp.step, .resolveKey 3, .construct], op.isLoad = false := by decide

theorem witness_RunEndsAtTheFirst :
    step (runOps [.tickTimers] (State.reset.withFetchWord 16 0x00EE)) = .fault .stackUnderflow ∧
    [HostOp.tickTimers, .step] = [.tickTimers] ++ .step :: [] := ⟨rfl, rfl⟩

end Sys2Proof.Machine.Tests
end

section
/-! PROOF of O4: the no-op space of each family (30_encoding.md R114 to R118), of the whole decoder (R121), and the step of a
no-op word. -/

namespace Sys2Proof

/-! ### The no-op space of each family -/

theorem isNoOp_decodeFamily0 (w : Word) : (decodeFamily0 w).isNoOp = true ↔ w ≠ 0x00E0#16 ∧ w ≠ 0x00EE#16 := by
  unfold decodeFamily0
  split_ifs <;> simp_all [Instr.isNoOp]

theorem isNoOp_decodeFamily5 (w : Word) : (decodeFamily5 w).isNoOp = true ↔ fieldN w ≠ 0x0#4 := by
  unfold decodeFamily5
  split_ifs <;> simp_all [Instr.isNoOp]

/-- The seven sub-opcodes that are no-ops are the complement of `aluOps` in the 16 values of `N` (R115). -/
theorem isNoOp_decodeFamily8 (w : Word) : (decodeFamily8 w).isNoOp = true ↔
    fieldN w ∈ [0x8#4, 0x9#4, 0xA#4, 0xB#4, 0xC#4, 0xD#4, 0xF#4] := by
  unfold decodeFamily8
  generalize fieldN w = n
  have hn : n.toNat < 16 := n.isLt
  simp only [List.mem_cons, List.not_mem_nil, or_false, ← BitVec.toNat_inj, BitVec.reduceToNat]
  interval_cases n.toNat <;> simp [Instr.isNoOp]

theorem isNoOp_decodeFamily9 (w : Word) : (decodeFamily9 w).isNoOp = true ↔ fieldN w ≠ 0x0#4 := by
  unfold decodeFamily9
  split_ifs <;> simp_all [Instr.isNoOp]

theorem isNoOp_decodeFamilyE (w : Word) : (decodeFamilyE w).isNoOp = true ↔ fieldNN w ∉ keyOps := by
  unfold decodeFamilyE keyOps
  split_ifs <;> simp_all [Instr.isNoOp]

theorem isNoOp_decodeFamilyF (w : Word) : (decodeFamilyF w).isNoOp = true ↔ fieldNN w ∉ miscOps := by
  unfold decodeFamilyF miscOps
  split_ifs <;> simp_all [Instr.isNoOp]

/-! ### The no-op space of the decoder -/

/-- Only the families 0, 5, 8, 9, E and F hold no-ops (R113, R121). -/
theorem isNoOp_decode (w : Word) : (decode w).isNoOp = true ↔
    (fieldF w = 0x0#4 ∧ (decodeFamily0 w).isNoOp = true) ∨
    ((fieldF w = 0x5#4 ∧ (decodeFamily5 w).isNoOp = true) ∨ (fieldF w = 0x9#4 ∧ (decodeFamily9 w).isNoOp = true)) ∨
    (fieldF w = 0x8#4 ∧ (decodeFamily8 w).isNoOp = true) ∨
    (fieldF w = 0xE#4 ∧ (decodeFamilyE w).isNoOp = true) ∨
    (fieldF w = 0xF#4 ∧ (decodeFamilyF w).isNoOp = true) := by
  unfold decode
  generalize fieldF w = f
  have hf : f.toNat < 16 := f.isLt
  simp only [← BitVec.toNat_inj, BitVec.reduceToNat]
  interval_cases f.toNat <;> simp [Instr.isNoOp]

end Sys2Proof

namespace Sys2Proof.Machine

variable {s : State} {w : Word}

/-! ### The step of a no-op -/

theorem step_of_fetch (h : s.fetch = some w) : step s = exec (decode w) s.advance := by
  simp only [step, h]

/-- The advance of `pc` is a taken skip, and changes `pc` alone (R142). -/
theorem advance_frame (s : State) : ChangesOnly (· = .pc) s s.advance := skipIf_frame s true

/-- A no-op leaves the state as the fetch left it (R145). -/
theorem exec_of_isNoOp {i : Instr} (h : i.isNoOp = true) (s : State) : exec i s = .next s := by
  cases i with
  | sys _ | nop5 _ _ _ | nop8 _ _ _ | nop9 _ _ _ | nopE _ _ | nopF _ _ => rfl
  | _ => exact absurd h Bool.false_ne_true

/-- A step of a no-op word is the fetch's advance of `pc` and nothing more (R142, R145). -/
theorem step_of_isNoOp (hw : s.fetch = some w) (h : (decode w).isNoOp = true) : step s = .next s.advance := by
  rw [step_of_fetch hw, exec_of_isNoOp h]

/-- Settles O4: the no-op space family by family, and the step of a no-op as the advance of `pc`. -/
theorem noOpSpaceIsExact : Obligations.NoOpSpaceIsExact := by
  unfold Obligations.NoOpSpaceIsExact
  refine ⟨fun w => ?_, fun s w hw h => ⟨s.advance, step_of_isNoOp hw h, advance_pc s, advance_frame s⟩⟩
  rw [isNoOp_decode, isNoOp_decodeFamily0, isNoOp_decodeFamily5, isNoOp_decodeFamily9, isNoOp_decodeFamily8,
    isNoOp_decodeFamilyE, isNoOp_decodeFamilyF, ← or_and_right]
  rfl

end Sys2Proof.Machine
end

section
/-! PROOF of O7: what `exec` answers, said once for all 40 forms (40_step_cycle.md R144): a next state, or the one fault that R144
lists for the form. No step refuses. -/

namespace Sys2Proof.Machine

/-- The fault that R144 lists for an instruction; none for the forms that always complete. -/
def listedFault : Instr → Option Fault
  | .ret => some .stackUnderflow
  | .call _ => some .stackOverflow
  | .drw _ _ _ | .ldB _ | .ldMemRegs _ | .ldRegsMem _ => some .outOfBounds
  | _ => none

/-- `listedFault` is R144's list, row by row. -/
theorem listedFault_eq_some (i : Instr) (f : Fault) : listedFault i = some f ↔
    (i = .ret ∧ f = .stackUnderflow) ∨ ((∃ nnn, i = .call nnn) ∧ f = .stackOverflow) ∨
    (((∃ x y n, i = .drw x y n) ∨ (∃ x, i = .ldB x ∨ i = .ldMemRegs x ∨ i = .ldRegsMem x)) ∧ f = .outOfBounds) := by
  cases i <;> simp [listedFault, eq_comm]

/-- The answer is a next state or the given fault: no other fault, and no refusal. -/
def CompletesOrFaults (f : Fault) (r : Result) : Prop := (∃ t, r = .next t) ∨ r = .fault f

theorem completesOrFaults_guarded (c : Prop) [Decidable c] (f : Fault) (t : State) :
    CompletesOrFaults f (if c then raise f else .next t) := by
  by_cases h : c
  · exact .inr (if_pos h)
  · exact .inl ⟨t, if_neg h⟩

theorem execRet_completesOrFaults (s : State) : CompletesOrFaults .stackUnderflow (execRet s) := by
  unfold execRet
  split
  · exact .inr rfl
  · exact .inl ⟨_, rfl⟩

/-- FX0A completes whether or not a key is captured (R254). -/
theorem execLdVxK_completes (x : RegIx) (s : State) : ∃ t, execLdVxK x s = .next t := by
  unfold execLdVxK
  split <;> exact ⟨_, rfl⟩

/-- What an instruction answers: a next state, or the fault listed for it (R144). -/
theorem exec_answers (i : Instr) (s : State) :
    (∃ t, exec i s = .next t) ∨ ∃ f, listedFault i = some f ∧ exec i s = .fault f := by
  cases i with
  | ret => exact (execRet_completesOrFaults s).imp_right fun h => ⟨_, rfl, h⟩
  | call | drw | ldB | ldMemRegs | ldRegsMem => exact (completesOrFaults_guarded _ _ _).imp_right fun h => ⟨_, rfl, h⟩
  | ldVxK x => exact .inl (execLdVxK_completes x s)
  | _ => exact .inl ⟨_, rfl⟩

theorem listedFault_of_exec {i : Instr} {s : State} {f : Fault} (h : exec i s = .fault f) : listedFault i = some f := by
  obtain ⟨t, ht⟩ | ⟨g, hg, he⟩ := exec_answers i s
  · simp [ht] at h
  · simpa [he, hg] using h

theorem exec_ne_refused (i : Instr) (s : State) (r : Refusal) : exec i s ≠ .refused r := by
  obtain ⟨t, ht⟩ | ⟨f, -, hf⟩ := exec_answers i s
  · simp [ht]
  · simp [hf]

theorem step_ne_refused (s : State) (r : Refusal) : step s ≠ .refused r := by
  obtain ⟨-, hs⟩ | ⟨w, -, hs⟩ := step_cases s
  · simp [hs]
  · exact hs ▸ exec_ne_refused _ _ r

/-- Settles O7: a fault of `exec` is the one listed for the form, and a step answers what the fetch or `exec` answers. -/
theorem onlyListedFaults : Obligations.OnlyListedFaults :=
  ⟨fun i _ f h => (listedFault_eq_some i f).1 (listedFault_of_exec h), step_ne_refused⟩

end Sys2Proof.Machine
end

section
/-! PROOF of O59: the end of a run (40_step_cycle.md R147), by induction on the operations the host issues. -/

namespace Sys2Proof.Machine

variable {s : State} {op : HostOp} {ops done : List HostOp} {e : RunEnd} {r : EndedRun}

/-- Of the operations done from `s`, none was issued at the halt, and a faulting `step` among them was the last and gave the
ending (R147). -/
def NoEndBefore (done : List HostOp) (s : State) (e : RunEnd) : Prop :=
  ∀ p op q, done = p ++ op :: q → (runOps p s).atHalt = false ∧
    (op = .step → ∀ f, step (runOps p s) = .fault f → q = [] ∧ e = .fault f)

/-- The ending says which of the three came first: the halt, a faulting `step` as the last operation done, or the host stopping
(R147). -/
def EndingFits (done : List HostOp) (s : State) (r : EndedRun) : Prop :=
  (r.ending = .halt ∧ r.last.atHalt = true) ∨
  (∃ f p, r.ending = .fault f ∧ done = p ++ [.step] ∧ step (runOps p s) = .fault f) ∨
  (r.ending = .hostStopped ∧ r.rest = [] ∧ r.last.atHalt = false)

/-- `r` is the end of the run from `s` in which the operations `done` were done (R147). -/
structure EndsAtFirst (done : List HostOp) (s : State) (r : EndedRun) : Prop where
  last : r.last = runOps done s
  noEndBefore : NoEndBefore done s r.ending
  endingFits : EndingFits done s r

theorem noEndBefore_nil : NoEndBefore [] s e := fun p op q h => by simp at h

/-- The first operation stands at the start of the run, and the others after it. -/
theorem noEndBefore_cons (hs : s.atHalt = false)
    (hop : op = .step → ∀ f, step s = .fault f → done = [] ∧ e = .fault f)
    (hd : NoEndBefore done (perform op s).1 e) : NoEndBefore (op :: done) s e := by
  intro p op' q h
  cases p with
  | nil =>
    obtain ⟨rfl, rfl⟩ := List.cons.inj h
    exact ⟨hs, hop⟩
  | cons _ p =>
    obtain ⟨rfl, rfl⟩ := List.cons.inj h
    exact hd p op' q rfl

theorem endingFits_cons (h : EndingFits done (perform op s).1 r) : EndingFits (op :: done) s r := by
  obtain hhalt | ⟨f, p, he, rfl, hf⟩ | hstop := h
  · exact .inl hhalt
  · exact .inr (.inl ⟨f, op :: p, he, rfl, hf⟩)
  · exact .inr (.inr hstop)

/-! ### The ends of a run, and a run that goes on -/

theorem endsAtFirst_hostStopped (h : s.atHalt = false) : EndsAtFirst [] s ⟨s, .hostStopped, []⟩ :=
  ⟨rfl, noEndBefore_nil, .inr (.inr ⟨rfl, rfl, h⟩)⟩

theorem endsAtFirst_fault {f : Fault} (h : s.atHalt = false) (hf : step s = .fault f) :
    EndsAtFirst [.step] s ⟨(perform .step s).1, .fault f, ops⟩ where
  last := rfl
  noEndBefore := noEndBefore_cons h (fun _ g hg => by simpa [hf] using hg) noEndBefore_nil
  endingFits := .inr (.inl ⟨f, [], rfl, rfl, hf⟩)

theorem endsAtFirst_cons (h : s.atHalt = false) (he : endOf op (perform op s).2 = none)
    (hr : EndsAtFirst done (perform op s).1 r) : EndsAtFirst (op :: done) s r where
  last := hr.last
  noEndBefore := by
    refine noEndBefore_cons h (fun hop f hf => ?_) hr.noEndBefore
    have hend := (endOf_perform_eq_some op s (.fault f)).2 ⟨hop, .inl ⟨f, hf, rfl⟩⟩
    simp [he] at hend
  endingFits := endingFits_cons hr.endingFits

/-- An operation that ends the run is a faulting `step`: no step refuses (R144). -/
theorem step_faults_of_endOf (he : endOf op (perform op s).2 = some e) :
    op = .step ∧ ∃ f, step s = .fault f ∧ e = .fault f := by
  obtain ⟨hop, hf | ⟨q, hq, -⟩⟩ := (endOf_perform_eq_some op s e).1 he
  · exact ⟨hop, hf⟩
  · exact absurd hq (step_ne_refused s q)

/-- At the halt no operation is done, whatever the host would issue. -/
theorem runToEnd_endsAtFirst_of_halt (ops : List HostOp) (h : s.atHalt = true) :
    ∃ done, ops = done ++ (runToEnd ops s).rest ∧ EndsAtFirst done s (runToEnd ops s) := by
  rw [runToEnd_of_halt ops h]
  exact ⟨[], rfl, rfl, noEndBefore_nil, .inl ⟨rfl, h⟩⟩

/-- The operations done and those left over are the ones the host would issue, and the run ends at the first end (R147). -/
theorem runToEnd_endsAtFirst (ops : List HostOp) (s : State) :
    ∃ done, ops = done ++ (runToEnd ops s).rest ∧ EndsAtFirst done s (runToEnd ops s) := by
  induction ops generalizing s with
  | nil =>
    cases h : s.atHalt with
    | true => exact runToEnd_endsAtFirst_of_halt [] h
    | false =>
      rw [runToEnd_nil_of_not_halt h]
      exact ⟨[], rfl, endsAtFirst_hostStopped h⟩
  | cons op ops ih =>
    cases h : s.atHalt with
    | true => exact runToEnd_endsAtFirst_of_halt _ h
    | false =>
      cases he : endOf op (perform op s).2 with
      | some e =>
        obtain ⟨rfl, f, hf, rfl⟩ := step_faults_of_endOf he
        rw [runToEnd_cons_of_end h he]
        exact ⟨[.step], rfl, endsAtFirst_fault h hf⟩
      | none =>
        obtain ⟨done, hops, hdone⟩ := ih (perform op s).1
        rw [runToEnd_cons_of_none h he]
        exact ⟨op :: done, congrArg (op :: ·) hops, endsAtFirst_cons h he hdone⟩

/-- Settles O59: the operations done, and the three parts of `EndsAtFirst` about them. -/
theorem runEndsAtTheFirst : Obligations.RunEndsAtTheFirst := by
  intro ops s
  obtain ⟨done, hops, hlast, hbefore, hends⟩ := runToEnd_endsAtFirst ops s
  exact ⟨done, hops, hlast, hbefore, hends⟩

end Sys2Proof.Machine
end

section
/-! PROOF of O6: the step in numbers (40_step_cycle.md R140 to R143): the word of the two bytes at `pc`, then its execution. -/

namespace Sys2Proof

/-- The value of a big-endian word (R83). -/
theorem wordOfBytes_toNat (hi lo : Byte) : (wordOfBytes hi lo).toNat = 256 * hi.toNat + lo.toNat := by
  rw [wordOfBytes, BitVec.toNat_append, ← Nat.shiftLeft_add_eq_or_of_lt lo.isLt, Nat.shiftLeft_eq, Nat.mul_comm]

end Sys2Proof

namespace Sys2Proof.Machine

theorem step_of_fetch_eq_none {s : State} (h : s.fetch = none) : step s = .fault .outOfBounds := by
  simp only [step, h, raise]

/-- The fetched word, known by its value (R83, R141). -/
theorem fetch_of_toNat {s : State} {w : Word} (hpc : s.pc.toNat ≤ 0xFFE)
    (hw : w.toNat = 256 * (s.readByte s.pc.toNat).toNat + (s.readByte (s.pc.toNat + 1)).toNat) : s.fetch = some w :=
  (fetch_eq_some s w).2 ⟨hpc, BitVec.eq_of_toNat_eq (hw.trans (wordOfBytes_toNat _ _).symm)⟩

/-- Settles O6: beyond memory the fetch answers no word, and else the word of the given value. -/
theorem stepRunsDecodedInstruction : Obligations.StepRunsDecodedInstruction := by
  refine fun s => ⟨fun hpc => ?_, fun hpc w hw => ?_⟩
  · exact step_of_fetch_eq_none ((fetch_eq_none s).2 (by omega))
  · exact step_of_fetch (fetch_of_toNat (by omega) hw)

end Sys2Proof.Machine
end

section
/-! PROOF of O13, O11, O15 and O16: control transfer (41_flow.md R160 to R167). First the words of the flow instructions and what a
return, a jump and a skip do to the state; then the statements. -/

namespace Sys2Proof

/-! ### The words of the flow instructions (R113, R116) -/

theorem decode_wordNNN_one (nnn : Addr) : decode (wordNNN 0x1 nnn) = .jp nnn := by
  simp [decode, fieldF_wordNNN, fieldNNN_wordNNN]

theorem decode_wordXNN_three (x : RegIx) (nn : Byte) : decode (wordXNN 0x3 x nn) = .seImm x nn := by
  simp [decode, fieldF_wordXNN, fieldX_wordXNN, fieldNN_wordXNN]

theorem decode_wordXNN_four (x : RegIx) (nn : Byte) : decode (wordXNN 0x4 x nn) = .sneImm x nn := by
  simp [decode, fieldF_wordXNN, fieldX_wordXNN, fieldNN_wordXNN]

theorem decode_wordXYN_five (x y : RegIx) (n : Nibble) :
    decode (wordXYN 0x5 x y n) = if n = 0 then .seReg x y else .nop5 x y n := by
  simp [decode, decodeFamily5, fieldF_wordXYN, fieldX_wordXYN, fieldY_wordXYN, fieldN_wordXYN]

theorem decode_wordXYN_nine (x y : RegIx) (n : Nibble) :
    decode (wordXYN 0x9 x y n) = if n = 0 then .sneReg x y else .nop9 x y n := by
  simp [decode, decodeFamily9, fieldF_wordXYN, fieldX_wordXYN, fieldY_wordXYN, fieldN_wordXYN]

end Sys2Proof

namespace Sys2Proof.Machine

variable {s : State} {i : Instr}

/-! ### Return -/

theorem execRet_of_empty (h : s.sp = 0) : execRet s = .fault .stackUnderflow := by
  simp only [execRet, List.length_eq_zero_iff.mp h, raise]

/-- The newest entry stands above all the others (R37). -/
theorem stackEntry_newest {a : Word} {rest : List Word} (h : s.stack = a :: rest) :
    s.stackEntry rest.length = some a := by
  simp [State.stackEntry, h]

/-- Below the newest entry the stack is the rest of it (R37). -/
theorem stackEntry_older {a : Word} {rest : List Word} (h : s.stack = a :: rest) {j : Nat} (hj : j < rest.length) :
    s.stackEntry j = rest.reverse[j]? := by
  simp [State.stackEntry, h, List.getElem?_append_left, hj]

/-- A return writes the stack and `pc` alone (R33, R37). -/
theorem setStackPc_frame (s : State) (rest : List Word) (a : Word) :
    ChangesOnly (fun p => p = .pc ∨ p = .stack) s { s with stack := rest, pc := a } := by
  intro p hp
  cases p with
  | pc => exact absurd (.inl rfl) hp
  | stack => exact absurd (.inr rfl) hp
  | _ => rfl

/-! ### The state a faulting step leaves -/

theorem faultLeaves_of_fetch {w : Word} (h : s.fetch = some w) : s.faultLeaves = s.advance := by
  simp only [State.faultLeaves, h]

theorem perform_step_of_fault {f : Fault} (h : step s = .fault f) : perform .step s = (s.faultLeaves, .fault f) := by
  simp only [perform, h, replyOf]

/-! ### Jump and skip -/

theorem addrWord_toNat (nnn : Addr) : (addrWord nnn).toNat = nnn.toNat :=
  BitVec.toNat_setWidth_of_le (by decide)

/-- A jump changes `pc` alone (R33). -/
theorem jump_frame (s : State) (t : Word) : ChangesOnly (· = .pc) s (s.jump t) := by
  intro p hp
  cases p with
  | pc => exact absurd rfl hp
  | _ => rfl

/-- A skip on equality, as the spec writes it (R160). -/
theorem skips_of_eq {a b : Byte} (h : exec i s = .next (s.skipIf (a == b))) :
    ∃ t, exec i s = .next t ∧ t.pc = (if a = b then s.pc + 2 else s.pc) ∧ ChangesOnly (· = .pc) s t :=
  ⟨_, h, by simp [skipIf_pc], skipIf_frame s _⟩

/-- A skip on inequality, with the arms of the one on equality exchanged (R160). -/
theorem skips_of_ne {a b : Byte} (h : exec i s = .next (s.skipIf (a != b))) :
    ∃ t, exec i s = .next t ∧ t.pc = (if a = b then s.pc else s.pc + 2) ∧ ChangesOnly (· = .pc) s t :=
  ⟨_, h, by simp [skipIf_pc], skipIf_frame s _⟩

/-! ### The statements -/

/-- Settles O13: on an empty stack the step is the fault of `exec` on the advanced state; else the stack is a newest entry on top
of `k` older ones. -/
theorem returnPopsIntoPc : Obligations.ReturnPopsIntoPc := by
  refine ⟨by decide, fun s => ⟨execRet_of_empty, fun hsp hw => ?_, fun k hk => ?_⟩⟩
  · have hstep : step s = .fault .stackUnderflow :=
      (step_of_fetch hw).trans (execRet_of_empty (s := s.advance) hsp)
    rw [perform_step_of_fault hstep, faultLeaves_of_fetch hw]
    rfl
  · obtain ⟨a, rest, hs⟩ := List.exists_cons_of_length_eq_add_one hk
    obtain rfl : rest.length = k := by simpa [State.sp, hs] using hk
    exact ⟨_, execRet_eq_next.2 ⟨a, rest, hs, rfl⟩, (stackEntry_newest hs).symm, rfl,
      fun j hj => (stackEntry_older hs hj).symm, setStackPc_frame s rest a⟩

/-- Settles O11: the jump's target is `NNN`, extended. -/
theorem jumpSetsPc : Obligations.JumpSetsPc := fun nnn =>
  ⟨decode_wordNNN_one nnn, fun s => ⟨s.jump (addrWord nnn), rfl, addrWord_toNat nnn, jump_frame s _⟩⟩

/-- Settles O15: each is a skip on the comparison with `NN`. -/
theorem skipOnImmediate : Obligations.SkipOnImmediate := fun x nn =>
  ⟨decode_wordXNN_three x nn, decode_wordXNN_four x nn, fun _ => ⟨skips_of_eq rfl, skips_of_ne rfl⟩⟩

/-- Settles O16: each is a skip on the comparison of the two registers, where `N` = 0 selects it. -/
theorem skipOnRegisters : Obligations.SkipOnRegisters := by
  refine fun x y => ⟨decode_wordXYN_five x y 0, decode_wordXYN_nine x y 0, fun n hn => ?_, fun _ => ?_⟩
  · rw [decode_wordXYN_five, decode_wordXYN_nine, if_neg hn, if_neg hn]
    exact ⟨rfl, rfl⟩
  · exact ⟨skips_of_eq rfl, skips_of_ne rfl⟩

end Sys2Proof.Machine
end

section
/-! PROOF of O18, O19, O20, O22, O23 and O24: register loads, addition and subtraction (42_alu.md R183 to R185, R189, R190, R192).
First the words of these instructions, what the register and flag writes leave to read, and the flags and results as numbers; then
the statements. -/

namespace Sys2Proof

/-! ### The words of the register loads and the ALU (R113, R115) -/

theorem decode_wordXNN_six (x : RegIx) (nn : Byte) : decode (wordXNN 0x6 x nn) = .ldImm x nn := by
  simp [decode, fieldF_wordXNN, fieldX_wordXNN, fieldNN_wordXNN]

theorem decode_wordXNN_seven (x : RegIx) (nn : Byte) : decode (wordXNN 0x7 x nn) = .addImm x nn := by
  simp [decode, fieldF_wordXNN, fieldX_wordXNN, fieldNN_wordXNN]

theorem decode_wordXYN_eight (x y : RegIx) (n : Nibble) :
    decode (wordXYN 0x8 x y n) = decodeFamily8 (wordXYN 0x8 x y n) := by
  simp [decode, fieldF_wordXYN]

theorem decode_wordXYN_eight_zero (x y : RegIx) : decode (wordXYN 0x8 x y 0x0#4) = .ldReg x y := by
  simp [decode_wordXYN_eight, decodeFamily8, fieldX_wordXYN, fieldY_wordXYN, fieldN_wordXYN]

theorem decode_wordXYN_eight_four (x y : RegIx) : decode (wordXYN 0x8 x y 0x4#4) = .addReg x y := by
  simp [decode_wordXYN_eight, decodeFamily8, fieldX_wordXYN, fieldY_wordXYN, fieldN_wordXYN]

theorem decode_wordXYN_eight_five (x y : RegIx) : decode (wordXYN 0x8 x y 0x5#4) = .sub x y := by
  simp [decode_wordXYN_eight, decodeFamily8, fieldX_wordXYN, fieldY_wordXYN, fieldN_wordXYN]

theorem decode_wordXYN_eight_seven (x y : RegIx) : decode (wordXYN 0x8 x y 0x7#4) = .subn x y := by
  simp [decode_wordXYN_eight, decodeFamily8, fieldX_wordXYN, fieldY_wordXYN, fieldN_wordXYN]

end Sys2Proof

namespace Sys2Proof.Machine

/-! ### Reading after the register and flag writes -/

theorem setV_getV_self (s : State) (x : RegIx) (b : Byte) : (s.setV x b).getV x = b := by simp

/-- The flag is written last, so VF reads as the flag for every destination (R181, D3). -/
theorem setWithFlag_getV_vF (s : State) (x : RegIx) (r f : Byte) : (s.setWithFlag x r f).getV vF = f := by simp

/-- A destination other than VF keeps its result (R181). -/
theorem setWithFlag_getV_of_ne (s : State) {x : RegIx} (hx : x ≠ vF) (r f : Byte) :
    (s.setWithFlag x r f).getV x = r := by simp [hx]

/-! ### Flags and results as numbers (R182) -/

theorem carryFlag_eq (a b : Byte) : carryFlag a b = if a.toNat + b.toNat > 255 then 1 else 0 := by
  simp [carryFlag, flagByte_eq]

theorem notBorrowFlag_eq (a b : Byte) : notBorrowFlag a b = if a.toNat ≥ b.toNat then 1 else 0 := by
  simp [notBorrowFlag, flagByte_eq]

/-- The difference of two bytes is the integers' difference modulo 256. -/
theorem sub_toNat_emod (a b : Byte) : ((a - b).toNat : Int) = (a.toNat - b.toNat : Int) % 256 := by
  rw [BitVec.toNat_sub]
  omega

/-- What 8XY5 and 8XY7 share: the difference of their operands with not-borrow in VF (R190, R192). -/
theorem subtracts {i : Instr} {s : State} {x : RegIx} {a b : Byte}
    (h : exec i s = .next (s.setWithFlag x (a - b) (notBorrowFlag a b))) :
    ∃ t, exec i s = .next t ∧ t.getV vF = (if a.toNat ≥ b.toNat then 1 else 0) ∧
      (x ≠ vF → ((t.getV x).toNat : Int) = (a.toNat - b.toNat : Int) % 256) ∧
      ChangesOnly (fun p => p = .reg x ∨ p = .reg vF) s t := by
  refine ⟨_, h, ?_, fun hx => ?_, setWithFlag_frame s x _ _⟩
  · rw [setWithFlag_getV_vF, notBorrowFlag_eq]
  · rw [setWithFlag_getV_of_ne s hx, sub_toNat_emod]

/-! ### The statements -/

/-- Settles O18: the register written is `V[X]`, the byte written is `NN`. -/
theorem loadImmediate : Obligations.LoadImmediate := fun x nn =>
  ⟨decode_wordXNN_six x nn, fun s => ⟨_, rfl, setV_getV_self s x nn, setV_frame s x nn⟩⟩

/-- Settles O19: addition of bytes is addition modulo 256. -/
theorem addImmediateWraps : Obligations.AddImmediateWraps := by
  refine fun x nn => ⟨decode_wordXNN_seven x nn, fun s => ⟨_, rfl, ?_, setV_frame s x _⟩⟩
  rw [setV_getV_self, BitVec.toNat_add]

/-- Settles O20: the byte written is the one read from `V[Y]`. -/
theorem assignCopies : Obligations.AssignCopies := fun x y =>
  ⟨decode_wordXYN_eight_zero x y, fun s => ⟨_, rfl, setV_getV_self s x _, setV_frame s x _⟩⟩

/-- Settles O22: VF holds the carry for every `X`; only a destination other than VF keeps the sum. -/
theorem addSetsCarry : Obligations.AddSetsCarry := by
  refine fun x y => ⟨decode_wordXYN_eight_four x y, fun s => ⟨_, rfl, ?_, fun hx => ?_, setWithFlag_frame s x _ _⟩⟩
  · rw [setWithFlag_getV_vF, carryFlag_eq]
  · rw [setWithFlag_getV_of_ne s hx, BitVec.toNat_add]

/-- Settles O23: 8XY5 subtracts `V[Y]` from `V[X]`. -/
theorem subSetsNotBorrow : Obligations.SubSetsNotBorrow := fun x y =>
  ⟨decode_wordXYN_eight_five x y, fun _ => subtracts rfl⟩

/-- Settles O24: 8XY7 subtracts `V[X]` from `V[Y]`. -/
theorem subnSetsNotBorrow : Obligations.SubnSetsNotBorrow := fun x y =>
  ⟨decode_wordXYN_eight_seven x y, fun _ => subtracts rfl⟩

end Sys2Proof.Machine
end

section
/-! PROOF of O27, O28, O29, O30, O31 and O32: the index register and the memory instructions (43_index_memory.md R210 to R215).
First the words of these instructions, how frames compose, what each write changes, and the values stored as numbers; then the
statements. -/

namespace Sys2Proof

/-! ### The words of the index and memory instructions (R113, R118) -/

theorem decode_wordNNN_ten (nnn : Addr) : decode (wordNNN 0xA nnn) = .ldI nnn := by
  simp [decode, fieldF_wordNNN, fieldNNN_wordNNN]

theorem decode_wordXNN_fifteen (x : RegIx) (nn : Byte) :
    decode (wordXNN 0xF x nn) = decodeFamilyF (wordXNN 0xF x nn) := by
  simp [decode, fieldF_wordXNN]

theorem decode_wordXNN_addI (x : RegIx) : decode (wordXNN 0xF x 0x1E#8) = .addI x := by
  simp [decode_wordXNN_fifteen, decodeFamilyF, fieldX_wordXNN, fieldNN_wordXNN]

theorem decode_wordXNN_ldF (x : RegIx) : decode (wordXNN 0xF x 0x29#8) = .ldF x := by
  simp [decode_wordXNN_fifteen, decodeFamilyF, fieldX_wordXNN, fieldNN_wordXNN]

theorem decode_wordXNN_ldB (x : RegIx) : decode (wordXNN 0xF x 0x33#8) = .ldB x := by
  simp [decode_wordXNN_fifteen, decodeFamilyF, fieldX_wordXNN, fieldNN_wordXNN]

theorem decode_wordXNN_ldMemRegs (x : RegIx) : decode (wordXNN 0xF x 0x55#8) = .ldMemRegs x := by
  simp [decode_wordXNN_fifteen, decodeFamilyF, fieldX_wordXNN, fieldNN_wordXNN]

theorem decode_wordXNN_ldRegsMem (x : RegIx) : decode (wordXNN 0xF x 0x65#8) = .ldRegsMem x := by
  simp [decode_wordXNN_fifteen, decodeFamilyF, fieldX_wordXNN, fieldNN_wordXNN]

end Sys2Proof

namespace Sys2Proof.Machine

variable {s t u : State} {w w₁ w₂ : Part → Prop}

/-! ### Frames -/

theorem same_trans {p : Part} (hst : p.same s t) (htu : p.same t u) : p.same s u := by
  cases p <;> exact htu.trans hst

/-- Two operations in a row change what either of them changes. -/
theorem changesOnly_comp (hst : ChangesOnly w₁ s t) (htu : ChangesOnly w₂ t u) (h₁ : ∀ p, w₁ p → w p)
    (h₂ : ∀ p, w₂ p → w p) : ChangesOnly w s u :=
  fun p hp => same_trans (hst p (mt (h₁ p) hp)) (htu p (mt (h₂ p) hp))

/-- The frame of an operation that writes memory alone, from the bytes it keeps. -/
theorem changesOnly_of_mem (ht : t = { s with mem := t.mem }) (h : ∀ a, ¬ w (.byte a) → t.readByte a = s.readByte a) :
    ChangesOnly w s t := by
  intro p hp
  cases p with
  | byte a => exact h a hp
  | _ => rw [ht]; rfl

/-- The frame of an operation that writes registers alone, from the registers it keeps. -/
theorem changesOnly_of_v (ht : t = { s with v := t.v }) (h : ∀ r, ¬ w (.reg r) → t.getV r = s.getV r) :
    ChangesOnly w s t := by
  intro p hp
  cases p with
  | reg r => exact h r hp
  | _ => rw [ht]; rfl

theorem isByteOf_byte (c a n : Nat) : (Part.byte c).isByteOf a n ↔ a ≤ c ∧ c < a + n := by
  constructor
  · rintro ⟨k, hk, hc⟩
    cases hc
    omega
  · rintro ⟨hac, hcn⟩
    exact ⟨c - a, by omega, congrArg Part.byte (by omega)⟩

/-- A write of `I` changes it alone (R36). -/
theorem setIndex_frame (s : State) (i : Word) : ChangesOnly (· = .index) s (s.setIndex i) := by
  intro p hp
  cases p with
  | index => exact absurd rfl hp
  | _ => rfl

theorem writeBytes_frame (s : State) (a : Nat) (bs : List Byte) :
    ChangesOnly (fun p => p.isByteOf a bs.length) s (s.writeBytes a bs) :=
  changesOnly_of_mem (writeBytes_eq s a bs) fun c hc => by
    rw [writeBytes_readByte, if_neg (mt (isByteOf_byte c a bs.length).2 hc)]

/-- A block store changes only the bytes of the block (R214). -/
theorem storeRegs_regBlock_frame (s : State) (base : Nat) (x : RegIx) :
    ChangesOnly (fun p => p.isByteOf base (x.val + 1)) s (s.storeRegs base (regBlock x)) :=
  changesOnly_of_mem (storeRegs_eq s base _) fun a ha => (storeRegs_readByte s base _).2 a fun r hr h =>
    ha ⟨r.val, Nat.lt_succ_of_le ((mem_regBlock x r).1 hr), congrArg Part.byte h⟩

/-- A block load changes only the registers of the block (R215). -/
theorem loadRegs_regBlock_frame (s : State) (base : Nat) (x : RegIx) :
    ChangesOnly (fun p => ∃ r : RegIx, r ≤ x ∧ p = .reg r) s (s.loadRegs base (regBlock x)) :=
  changesOnly_of_v (loadRegs_eq s base _) fun r hr => by
    rw [loadRegs_getV, if_neg fun h => hr ⟨r, (mem_regBlock x r).1 h, rfl⟩]

/-! ### Adding to the index register (R211) -/

theorem flagIndexOverflow_frame (s : State) (sum : Nat) : ChangesOnly (· = .reg vF) s (s.flagIndexOverflow sum) := by
  unfold State.flagIndexOverflow
  split
  · exact setV_frame s vF 1
  · exact fun p _ => by cases p <;> rfl

theorem addIndexWith_frame (m : IndexMode) (x : RegIx) (s : State) :
    ChangesOnly (fun p => p = .index ∨ p = .reg vF) s (addIndexWith m x s) :=
  changesOnly_comp (setIndex_frame s _) (flagIndexOverflow_frame _ _) (fun _ => .inl) (fun _ => .inr)

/-- Below 0x1000 FX1E stores the sum in either mode and leaves VF (R211, D6). -/
theorem addIndexWith_of_lt (m : IndexMode) {x : RegIx} (h : s.index.toNat + (s.getV x).toNat < 0x1000) :
    addIndexWith m x s = s.setIndex (BitVec.ofNat 16 (s.index.toNat + (s.getV x).toNat)) := by
  rw [addIndexWith, indexSum, if_pos h, State.flagIndexOverflow, if_neg (Nat.not_le.2 h)]

/-- From 0x1000 on FX1E stores the sum by the mode and sets VF (R211, D5). -/
theorem addIndexWith_of_le (m : IndexMode) {x : RegIx} (h : 0x1000 ≤ s.index.toNat + (s.getV x).toNat) :
    addIndexWith m x s = (s.setIndex (wrapIndex m (s.index.toNat + (s.getV x).toNat))).setV vF 1 := by
  rw [addIndexWith, indexSum, if_neg (Nat.not_lt.2 h), State.flagIndexOverflow, if_pos h]

theorem wrapIndex_wrap16_toNat (sum : Nat) : (wrapIndex .wrap16 sum).toNat = sum % 0x10000 := by
  simp [wrapIndex]

theorem wrapIndex_mask12_toNat (sum : Nat) : (wrapIndex .mask12 sum).toNat = sum % 0x1000 := by
  simp only [wrapIndex, BitVec.toNat_ofNat]
  omega

/-! ### Glyph addresses and stored digits (R212, R213) -/

theorem glyphAddr_toNat (b : Byte) : (glyphAddr b).toNat = b.toNat % 16 * 5 := by
  have hmask : b.toNat &&& 15 = b.toNat % 16 := Nat.and_two_pow_sub_one_eq_mod b.toNat 4
  simp only [glyphAddr, BitVec.toNat_mul, BitVec.toNat_setWidth, BitVec.toNat_and, BitVec.toNat_ofNat, Nat.reducePow,
    Nat.reduceMod, hmask]
  omega

/-- The bytes stored are read back in order (R83). -/
theorem writeBytes_readByte_add (s : State) (a : Nat) {bs : List Byte} {k : Nat} (hk : k < bs.length) :
    (s.writeBytes a bs).readByte (a + k) = bs[k] := by
  rw [writeBytes_readByte, if_pos (by omega), Nat.add_sub_cancel_left, List.getD_eq_getElem _ _ hk]

/-- A stored byte reads back as the number it was made of. -/
theorem writeBytes_readByte_toNat (s : State) (a : Nat) {bs : List Byte} {k n : Nat} (hk : bs[k]? = some (BitVec.ofNat 8 n))
    (hn : n < 256) : ((s.writeBytes a bs).readByte (a + k)).toNat = n := by
  obtain ⟨hlen, hbyte⟩ := List.getElem?_eq_some_iff.1 hk
  rw [writeBytes_readByte_add s a hlen, hbyte]
  exact Nat.mod_eq_of_lt hn

/-! ### Accesses above 0xFFF (R84, D7) -/

theorem outOfRange_of_lt {base n : Nat} (h : 0xFFF < base + n) : outOfRange base (n + 1) = true :=
  decide_eq_true ⟨n.succ_pos, h⟩

theorem storeFaults_of_lt (p : FontWritePolicy) {base n : Nat} (h : 0xFFF < base + n) :
    storeFaults p base (n + 1) = true := by
  rw [storeFaults, outOfRange_of_lt h, Bool.true_or]

/-- The end of a block inside memory fits `I`, which the transfer leaves there (R214, R215). -/
theorem blockEnd_toNat {base n : Nat} (h : base + n ≤ 0xFFF) : (BitVec.ofNat 16 (base + n + 1)).toNat = base + n + 1 :=
  Nat.mod_eq_of_lt (by omega)

/-! ### The statements -/

/-- Settles O27: `I` takes `NNN`, extended. -/
theorem loadIndex : Obligations.LoadIndex := fun nnn =>
  ⟨decode_wordNNN_ten nnn, fun s => ⟨_, rfl, addrWord_toNat nnn, setIndex_frame s _⟩⟩

/-- Settles O28: the sum stands on one side of 0x1000, and above it the mode says which residue `I` takes. -/
theorem addIndexOverflow : Obligations.AddIndexOverflow := by
  refine fun x => ⟨decode_wordXNN_addI x, fun s => ⟨_, rfl, ⟨fun hlt => ?_, fun hle => ?_⟩, addIndexWith_frame _ x s⟩⟩
  · rw [addIndexWith_of_lt _ hlt]
    exact ⟨Nat.mod_eq_of_lt (by omega), setIndex_getV s _ vF⟩
  · rw [addIndexWith_of_le _ hle, setV_index, setIndex_index]
    refine ⟨setV_getV_self _ vF 1, ?_⟩
    cases indexMode with
    | wrap16 => exact wrapIndex_wrap16_toNat _
    | mask12 => exact wrapIndex_mask12_toNat _

/-- Settles O29: the glyph's address, at most 15 times 5. -/
theorem glyphAddress : Obligations.GlyphAddress := by
  refine fun x => ⟨decode_wordXNN_ldF x, fun s => ⟨_, rfl, glyphAddr_toNat _, ?_, setIndex_frame s _⟩⟩
  rw [setIndex_index, glyphAddr_toNat]
  omega

/-- Settles O30: three digits are stored from `I` on, and read back in order. -/
theorem storeBcd : Obligations.StoreBcd := by
  refine fun x => ⟨decode_wordXNN_ldB x, fun s => ⟨fun h => if_pos (storeFaults_of_lt _ h), fun h hfont => ?_⟩⟩
  have hbyte := (s.getV x).isLt
  exact ⟨_, (storeBcdWith_eq_next _ x).2 ⟨⟨by omega, hfont⟩, rfl⟩,
    writeBytes_readByte_toNat s _ (k := 0) rfl (by omega), writeBytes_readByte_toNat s _ (k := 1) rfl (by omega),
    writeBytes_readByte_toNat s _ (k := 2) rfl (by omega), writeBytes_frame s _ (bcdDigits (s.getV x))⟩

/-- Settles O31: the block is stored first, then `I` moves past it. -/
theorem storeBlock : Obligations.StoreBlock := by
  refine fun x => ⟨decode_wordXNN_ldMemRegs x, fun s => ⟨fun h => if_pos (storeFaults_of_lt _ h), fun h hfont => ?_⟩⟩
  refine ⟨_, (storeBlockWith_eq_next _ x).2 ⟨⟨by omega, hfont⟩, rfl⟩, fun r hr => ?_, blockEnd_toNat h, ?_⟩
  · exact (storeRegs_readByte s _ _).1 r ((mem_regBlock x r).2 hr)
  · exact changesOnly_comp (storeRegs_regBlock_frame s _ x) (setIndex_frame _ _) (fun _ => .inr) (fun _ => .inl)

/-- Settles O32: the block is loaded first, then `I` moves past it. -/
theorem loadBlock : Obligations.LoadBlock := by
  refine fun x => ⟨decode_wordXNN_ldRegsMem x, fun s => ⟨fun h => if_pos (outOfRange_of_lt h), fun h => ?_⟩⟩
  refine ⟨_, (execLdRegsMem_eq_next x).2 ⟨by omega, rfl⟩, fun r hr => ?_, blockEnd_toNat h, ?_⟩
  · rw [setIndex_getV, loadRegs_getV, if_pos ((mem_regBlock x r).2 hr)]
  · exact changesOnly_comp (loadRegs_regBlock_frame s _ x) (setIndex_frame _ _) (fun _ => .inr) (fun _ => .inl)

end Sys2Proof.Machine
end

section
/-! PROOF of O36, O37 and O35: the display instructions (44_display.md R230 to R233). First the word of DXYN, then what one DXYN
answers, in the words of `spriteLit`; then the statements. -/

namespace Sys2Proof

/-! ### The word of the sprite instruction (R113) -/

theorem decode_wordXYN_thirteen (x y : RegIx) (n : Nibble) : decode (wordXYN 0xD x y n) = .drw x y n := by
  simp [decode, fieldF_wordXYN, fieldX_wordXYN, fieldY_wordXYN, fieldN_wordXYN]

end Sys2Proof

namespace Sys2Proof.Machine

variable (s : State) (x y : RegIx) (n : Nibble)

/-! ### Clearing (R231) -/

/-- Clearing writes `dirty` and pixels alone (R231). -/
theorem clear_frame : ChangesOnly (fun p => p = .dirty ∨ p.isPixel) s { s with disp := Display.off, dirty := true } := by
  intro p hp
  cases p with
  | dirty => exact absurd (.inl rfl) hp
  | pixel a b => exact absurd (.inr ⟨a, b, rfl⟩) hp
  | _ => rfl

/-! ### What DXYN answers (R232) -/

/-- The state that a DXYN which does not fault answers. -/
def State.drawn : State :=
  s.drawSprite (originX (s.getV x)) (originY (s.getV y)) (s.readBytes s.index.toNat (spriteRows n (originY (s.getV y))))

/-- Does a set bit of the sprite that DXYN draws lie on a pixel that is on? -/
def spriteCollides : Prop := ∃ px py, px < 64 ∧ py < 32 ∧ spriteLit s x y n px py ∧ s.disp.pixel px py = true

theorem spriteRows_originY (b : Byte) : spriteRows n (originY b) = min n.toNat (32 - b.toNat % 32) := by
  rw [spriteRows, originY_eq]

/-- DXYN faults where a row to be drawn lies above 0xFFF (D7). -/
theorem exec_drw_of_above (h : 0 < spriteRows n (originY (s.getV y)))
    (habove : 0xFFF < s.index.toNat + spriteRows n (originY (s.getV y)) - 1) :
    exec (.drw x y n) s = .fault .outOfBounds :=
  if_pos (decide_eq_true ⟨h, habove⟩)

/-- DXYN completes where no row is drawn or the last one lies at most at 0xFFF. -/
theorem exec_drw_of_within (h : spriteRows n (originY (s.getV y)) = 0 ∨
    s.index.toNat + spriteRows n (originY (s.getV y)) ≤ 0x1000) : exec (.drw x y n) s = .next (s.drawn x y n) :=
  (execDrw_eq_next x y n).2 ⟨h, rfl⟩

/-- The sprite's rows that are read lie on the display. -/
theorem origin_add_length_le : originY (s.getV y) +
    (s.readBytes s.index.toNat (spriteRows n (originY (s.getV y)))).length ≤ 32 := by
  rw [readBytes_length]
  refine spriteRows_le n _ ?_
  rw [originY_eq]
  omega

/-- Only a pixel of the grid can be on (R39). -/
theorem row_lt_of_pixel {d : Display} {px py : Nat} (h : d.pixel px py = true) : py < 32 := by
  by_contra hpy
  simp [Display.pixel, hpy] at h

/-- The drawn pixels are the old ones XOR the sprite's set bits (R232). -/
theorem drawn_pixel {px py : Nat} (hpx : px < 64) (hpy : py < 32) :
    (s.drawn x y n).disp.pixel px py = true ↔ ¬ (s.disp.pixel px py = true ↔ spriteLit s x y n px py) := by
  rw [← rowsLit_sprite s x y n px py hpy]
  exact (drawRows_spec _ _ _ (origin_add_length_le s y n) _).1 px py hpx

/-- The collision flag of the drawing is the sprite's collision (R232). -/
theorem drawRows_hit_iff : (Canvas.drawRows (originX (s.getV x)) (originY (s.getV y))
    (s.readBytes s.index.toNat (spriteRows n (originY (s.getV y)))) ⟨s.disp, false⟩).hit = true ↔
    spriteCollides s x y n := by
  rw [(drawRows_spec _ _ _ (origin_add_length_le s y n) _).2]
  constructor
  · rintro (h | ⟨px, py, hpx, hlit, hon⟩)
    · exact absurd h Bool.false_ne_true
    · have hpy := row_lt_of_pixel hon
      exact ⟨px, py, hpx, hpy, (rowsLit_sprite s x y n px py hpy).1 hlit, hon⟩
  · rintro ⟨px, py, hpx, hpy, hlit, hon⟩
    exact .inr ⟨px, py, hpx, (rowsLit_sprite s x y n px py hpy).2 hlit, hon⟩

/-- VF is 1 after a collision and 0 without one (R232). -/
theorem drawn_getV_vF : ((s.drawn x y n).getV vF = 1 ∧ spriteCollides s x y n) ∨
    ((s.drawn x y n).getV vF = 0 ∧ ¬ spriteCollides s x y n) := by
  rw [← drawRows_hit_iff, State.drawn, drawSprite_getV, if_pos rfl]
  cases (Canvas.drawRows _ _ _ _).hit with
  | true => exact .inl ⟨rfl, rfl⟩
  | false => exact .inr ⟨rfl, Bool.false_ne_true⟩

theorem drawn_frame : ChangesOnly (fun p => p = .reg vF ∨ p = .dirty ∨ p.isPixel) s (s.drawn x y n) :=
  drawSprite_frame s _ _ _

/-! ### Drawing no rows (R233, D16) -/

theorem spriteRows_zero (oy : Nat) : spriteRows 0 oy = 0 := Nat.zero_min _

theorem drawn_zero : s.drawn x y 0 = s.drawSprite (originX (s.getV x)) (originY (s.getV y)) [] := by
  rw [State.drawn, spriteRows_zero, State.readBytes]

/-- A sprite of no rows changes no pixel either. -/
theorem drawSprite_nil_frame (ox oy : Nat) :
    ChangesOnly (fun p => p = .reg vF ∨ p = .dirty) s (s.drawSprite ox oy []) := by
  intro p hp
  by_cases hpix : p.isPixel
  · obtain ⟨a, b, rfl⟩ := hpix
    rfl
  · exact drawSprite_frame s ox oy [] p fun h => hp (h.imp_right fun h => h.resolve_right hpix)

/-! ### The statements -/

/-- Settles O35: the display is replaced by the one that is off. -/
theorem clearTurnsEveryPixelOff : Obligations.ClearTurnsEveryPixelOff :=
  ⟨by decide, fun s => ⟨_, rfl, pixel_off, rfl, clear_frame s⟩⟩

/-- Settles O36: the rows drawn are those of `spriteRows`, and drawing them is `drawRows_spec` in the words of `spriteLit`. -/
theorem drawXorsSprite : Obligations.DrawXorsSprite := by
  refine fun x y n => ⟨decode_wordXYN_thirteen x y n, fun s rows hrows => ?_⟩
  rw [← spriteRows_originY] at hrows
  subst hrows
  refine ⟨fun ⟨hpos, habove⟩ => exec_drw_of_above s x y n hpos habove, fun hwithin => ?_⟩
  exact ⟨_, exec_drw_of_within s x y n (hwithin.imp_right fun h => by omega), rfl,
    fun px py => drawn_pixel s x y n, drawn_getV_vF s x y n, drawn_frame s x y n⟩

/-- Settles O37: with no row to draw there is no access to memory and nothing to collide. -/
theorem drawZeroRows : Obligations.DrawZeroRows := by
  refine fun x y s => ⟨_, exec_drw_of_within s x y 0 (.inl (spriteRows_zero _)), ?_⟩
  rw [drawn_zero]
  exact ⟨setV_getV_self _ vF _, rfl, drawSprite_nil_frame s _ _⟩

end Sys2Proof.Machine
end

section
/-! PROOF of O52, O55, O56 and O57: the invariants (45_input_timer.md R256; 10_state.md sections 2 and 4). What a completing
instruction can do to the parts that `CoreInv` speaks of is said once, then what a completing step can do; each invariant follows
from that, and `CoreInv` is carried through every host operation and every run. -/

namespace Sys2Proof.Machine

variable {s t : State} {i : Instr} {w : Word} {x : RegIx}

/-! ### The key-wait states of FX0A (R254, R255) -/

/-- The key-wait under way: `seeking`, and all else as in `s`. -/
def State.seek (s : State) : State := { s with seeking := true }

/-- The key-wait ended: key `k` goes to `V[x]`, and the state is idle with no captured key. -/
def State.takeKey (s : State) (x : RegIx) (k : KeyIx) : State :=
  ({ s with captured := none, seeking := false }).setV x (BitVec.ofNat 8 k.val)

theorem exec_ldVxK_of_none (x : RegIx) (h : s.captured = none) : exec (.ldVxK x) s = .next s.seek.rewind :=
  (execLdVxK_eq_next x).2 (.inl ⟨h, rfl⟩)

theorem exec_ldVxK_of_some (x : RegIx) {k : KeyIx} (h : s.captured = some k) :
    exec (.ldVxK x) s = .next (s.takeKey x k) :=
  (execLdVxK_eq_next x).2 (.inr ⟨k, h, rfl⟩)

/-- The rewind undoes the fetch's advance (R142, R254). -/
theorem rewind_seek_advance (s : State) : s.advance.seek.rewind = s.seek := by
  simp [State.rewind, State.seek, State.advance]

/-- With no captured key the whole step of an FX0A seeks, and `pc` stays at it (R255). -/
theorem step_ldVxK_of_none (hw : s.fetch = some w) (hx : decode w = .ldVxK x) (hc : s.captured = none) :
    step s = .next s.seek := by
  rw [step_of_fetch hw, hx, exec_ldVxK_of_none x (s := s.advance) hc, rewind_seek_advance]

/-! ### What a completing instruction can do -/

/-- What an instruction other than FX0A can leave in `pc` and the stack (R33, R37): both as they were, a skip, a jump, a return or
a call. -/
inductive FlowEffect (s : State) : Word → List Word → Prop
  | stay : FlowEffect s s.pc s.stack
  | skip : FlowEffect s (s.pc + 2) s.stack
  | jump (a : Word) (ha : a.toNat ≤ 0x10FE) : FlowEffect s a s.stack
  | ret (a : Word) (rest : List Word) (hs : s.stack = a :: rest) : FlowEffect s a rest
  | call (a : Word) (ha : a.toNat ≤ 0xFFF) (hs : s.sp < stackDepth) : FlowEffect s a (s.pc :: s.stack)

/-- What an instruction other than FX0A can do to the parts that the invariants speak of. -/
structure ControlEffect (s t : State) : Prop where
  seeking : t.seeking = s.seeking
  captured : t.captured = s.captured
  mem : s.mem.wf → t.mem.wf
  flow : FlowEffect s t.pc t.stack

theorem controlEffect_jump {a : Word} (ha : a.toNat ≤ 0x10FE) : ControlEffect s (s.jump a) :=
  ⟨rfl, rfl, id, .jump a ha⟩

theorem controlEffect_skipIf (s : State) (c : Bool) : ControlEffect s (s.skipIf c) := by
  cases c with
  | false => exact ⟨rfl, rfl, id, .stay⟩
  | true => exact ⟨rfl, rfl, id, .skip⟩

theorem controlEffect_addIndexWith (m : IndexMode) (x : RegIx) (s : State) : ControlEffect s (addIndexWith m x s) := by
  unfold addIndexWith State.flagIndexOverflow
  split <;> exact ⟨rfl, rfl, id, .stay⟩

theorem controlEffect_loadRegs (s : State) (base : Nat) (rs : List RegIx) (w : Word) :
    ControlEffect s ((s.loadRegs base rs).setIndex w) := by
  rw [loadRegs_eq]
  exact ⟨rfl, rfl, id, .stay⟩

theorem controlEffect_writeBytes {a : Nat} {bs : List Byte} (h : a + bs.length ≤ 0x1000) :
    ControlEffect s (s.writeBytes a bs) := by
  rw [writeBytes_eq]
  exact ⟨rfl, rfl, fun hm => writeBytes_wf s a bs hm h, .stay⟩

theorem controlEffect_storeRegs {base : Nat} (h : base + (x.val + 1) ≤ 0x1000) (w : Word) :
    ControlEffect s ((s.storeRegs base (regBlock x)).setIndex w) := by
  rw [storeRegs_eq]
  refine ⟨rfl, rfl, fun hm => storeRegs_wf s base _ hm fun r hr => ?_, .stay⟩
  have hle : r.val ≤ x.val := (mem_regBlock x r).1 hr
  rw [memTop]
  omega

theorem addrWord_toNat_le (nnn : Addr) : (addrWord nnn).toNat ≤ 0xFFF := by
  have := nnn.isLt
  rw [addrWord_toNat]
  omega

/-- BNNN reaches at most 0xFFF + 0xFF, with no wrap (R168, D25). -/
theorem jpV0_target_toNat_le (nnn : Addr) (b : Byte) : (addrWord nnn + b.setWidth 16).toNat ≤ 0x10FE := by
  have hn := addrWord_toNat_le nnn
  have hb := b.isLt
  rw [BitVec.toNat_add, BitVec.toNat_setWidth]
  omega

/-- Every instruction but FX0A, where it completes, does what `ControlEffect` lists. -/
theorem exec_controlEffect (hi : ∀ x, i ≠ .ldVxK x) (h : exec i s = .next t) : ControlEffect s t := by
  cases i with
  | ldVxK x => exact absurd rfl (hi x)
  | ret =>
    obtain ⟨a, rest, hs, rfl⟩ := execRet_eq_next.1 h
    exact ⟨rfl, rfl, id, .ret a rest hs⟩
  | call nnn =>
    obtain ⟨hs, rfl⟩ := (callWith_eq_next _ nnn).1 h
    exact ⟨rfl, rfl, id, .call (addrWord nnn) (addrWord_toNat_le nnn) hs⟩
  | jp nnn =>
    obtain rfl := Host.Outcome.next.inj h
    exact controlEffect_jump ((addrWord_toNat_le nnn).trans (by decide))
  | jpV0 nnn =>
    obtain rfl := Host.Outcome.next.inj h
    exact controlEffect_jump (jpV0_target_toNat_le nnn _)
  | seImm | sneImm | seReg | sneReg | skp | sknp =>
    obtain rfl := Host.Outcome.next.inj h
    exact controlEffect_skipIf s _
  | addI x =>
    obtain rfl := Host.Outcome.next.inj h
    exact controlEffect_addIndexWith _ x s
  | drw x y n =>
    obtain ⟨-, rfl⟩ := (execDrw_eq_next x y n).1 h
    exact ⟨rfl, rfl, id, .stay⟩
  | ldB x =>
    obtain ⟨⟨hb, -⟩, rfl⟩ := (storeBcdWith_eq_next _ x).1 h
    exact controlEffect_writeBytes hb
  | ldMemRegs x =>
    obtain ⟨⟨hb, -⟩, rfl⟩ := (storeBlockWith_eq_next _ x).1 h
    exact controlEffect_storeRegs hb _
  | ldRegsMem x =>
    obtain ⟨-, rfl⟩ := (execLdRegsMem_eq_next x).1 h
    exact controlEffect_loadRegs s _ _ _
  | _ =>
    obtain rfl := Host.Outcome.next.inj h
    exact ⟨rfl, rfl, id, .stay⟩

/-! ### What a completing step can do -/

/-- What a completing step can do to the parts that the invariants speak of: wait in an FX0A, take the key there, or run another
instruction. -/
inductive StepEffect (s : State) : State → Prop
  | wait (w : Word) (x : RegIx) (hw : s.fetch = some w) (hx : decode w = .ldVxK x) (hc : s.captured = none) :
    StepEffect s s.seek
  | take (w : Word) (x : RegIx) (k : KeyIx) (hw : s.fetch = some w) (hx : decode w = .ldVxK x)
    (hc : s.captured = some k) : StepEffect s (s.advance.takeKey x k)
  | other (w : Word) (t : State) (hw : s.fetch = some w) (hne : ∀ x, decode w ≠ .ldVxK x)
    (ht : ControlEffect s.advance t) : StepEffect s t

theorem stepEffect_of_next (h : step s = .next t) : StepEffect s t := by
  obtain ⟨-, hs⟩ | ⟨w, hw, hs⟩ := step_cases s
  · simp [hs] at h
  rw [hs] at h
  by_cases hx : ∃ x, decode w = .ldVxK x
  · obtain ⟨x, hx⟩ := hx
    rw [hx] at h
    obtain ⟨hc, rfl⟩ | ⟨k, hc, rfl⟩ := (execLdVxK_eq_next x).1 h
    · exact rewind_seek_advance s ▸ .wait w x hw hx hc
    · exact .take w x k hw hx hc
  · rw [not_exists] at hx
    exact .other w t hw hx (exec_controlEffect hx h)

/-! ### The key-wait invariant (R256) -/

theorem captured_of_idle (h : KeyWaitInv s) (hidle : s.seeking = false) : s.captured = none := by
  by_contra hc
  simp [h.1 hc] at hidle

theorem keyWaitInv_of_idle (hs : s.seeking = false) (hc : s.captured = none) : KeyWaitInv s :=
  ⟨fun h => absurd hc h, fun h => by simp [hs] at h⟩

/-- What leaves an idle core's `seeking` and captured key alone keeps the invariant, wherever `pc` goes. -/
theorem keyWaitInv_of_same (h : KeyWaitInv s) (hidle : s.seeking = false) (hs : t.seeking = s.seeking)
    (hc : t.captured = s.captured) : KeyWaitInv t :=
  keyWaitInv_of_idle (hs.trans hidle) (hc.trans (captured_of_idle h hidle))

/-- A core whose next instruction is no FX0A is idle. -/
theorem idle_of_fetch (h : KeyWaitInv s) (hw : s.fetch = some w) (hne : ∀ x, decode w ≠ .ldVxK x) :
    s.seeking = false := by
  by_contra hs
  obtain ⟨w', x, hw', hx⟩ := h.2 (Bool.eq_true_of_not_eq_false hs)
  obtain rfl := Option.some.inj (hw.symm.trans hw')
  exact hne x hx

theorem stepEffect_keyWaitInv (h : KeyWaitInv s) (ht : StepEffect s t) : KeyWaitInv t := by
  cases ht with
  | wait w x hw hx hc => exact ⟨fun _ => rfl, fun _ => ⟨w, x, hw, hx⟩⟩
  | take => exact keyWaitInv_of_idle rfl rfl
  | other w t hw hne ht => exact keyWaitInv_of_same h (idle_of_fetch h hw hne) ht.seeking ht.captured

/-- Settles O55: a wait stays at its FX0A, a taken key leaves the core idle, and another instruction runs in an idle core. -/
theorem stepKeepsKeyWait : Obligations.StepKeepsKeyWait := fun _ _ h hstep =>
  stepEffect_keyWaitInv h (stepEffect_of_next hstep)

/-! ### The bounds on the stack and on `pc` (R33, R37) -/

theorem toNat_add_two_le {a : Word} {n : Nat} (h : a.toNat ≤ n) : (a + 2).toNat ≤ n + 2 := by
  rw [BitVec.toNat_add]
  exact (Nat.mod_le _ _).trans (Nat.add_le_add_right h 2)

/-- The advance past a fetched word ends at most at 0x1000 (R34, R142). -/
theorem advance_pc_toNat_le (hw : s.fetch = some w) : s.advance.pc.toNat ≤ 0x1000 :=
  toNat_add_two_le ((fetch_eq_some s w).1 hw).1

theorem boundsInv_advance (h : BoundsInv s) (hw : s.fetch = some w) : BoundsInv s.advance := by
  obtain ⟨hsp, hstack, -⟩ := h
  exact ⟨hsp, hstack, (advance_pc_toNat_le hw).trans (by decide)⟩

/-- Where `pc` is at most 0x1000, as the fetch leaves it, each effect stays within the bounds. -/
theorem flowEffect_boundsInv (h : BoundsInv s) (hpc : s.pc.toNat ≤ 0x1000) {pc : Word} {stack : List Word}
    (hf : FlowEffect s pc stack) :
    stack.length ≤ stackDepth ∧ (∀ a ∈ stack, a.toNat ≤ 0x1000) ∧ pc.toNat ≤ 0x10FE := by
  obtain ⟨hsp, hstack, hpc'⟩ := h
  cases hf with
  | stay => exact ⟨hsp, hstack, hpc'⟩
  | skip => exact ⟨hsp, hstack, (toNat_add_two_le hpc).trans (by decide)⟩
  | jump _ ha => exact ⟨hsp, hstack, ha⟩
  | ret a rest hs =>
    rw [State.sp, hs, List.length_cons] at hsp
    rw [hs, List.forall_mem_cons] at hstack
    exact ⟨by omega, hstack.2, by omega⟩
  | call a ha hs => exact ⟨hs, List.forall_mem_cons.2 ⟨hpc, hstack⟩, ha.trans (by decide)⟩

theorem stepEffect_boundsInv (h : BoundsInv s) (ht : StepEffect s t) : BoundsInv t := by
  cases ht with
  | wait => exact h
  | take w x k hw => exact boundsInv_advance h hw
  | other w t hw _ ht => exact flowEffect_boundsInv (boundsInv_advance h hw) (advance_pc_toNat_le hw) ht.flow

/-! ### All invariants, through steps and host operations -/

theorem stepEffect_mem_wf (h : s.mem.wf) (ht : StepEffect s t) : t.mem.wf := by
  cases ht with
  | wait | take => exact h
  | other w t _ _ ht => exact ht.mem h

theorem coreInv_of_step (h : CoreInv s) (hstep : step s = .next t) : CoreInv t := by
  obtain ⟨hmem, hbounds, hkey⟩ := h
  have ht := stepEffect_of_next hstep
  exact ⟨stepEffect_mem_wf hmem ht, stepEffect_boundsInv hbounds ht, stepEffect_keyWaitInv hkey ht⟩

/-- FX0A never faults (R254), so an instruction that faults runs in an idle core; its fault leaves `pc` advanced (R274, D13). -/
theorem coreInv_faultLeaves (h : CoreInv s) {f : Fault} (hf : step s = .fault f) : CoreInv s.faultLeaves := by
  obtain ⟨hmem, hbounds, hkey⟩ := h
  cases hw : s.fetch with
  | none =>
    simp only [State.faultLeaves, hw]
    exact ⟨hmem, hbounds, hkey⟩
  | some w =>
    rw [faultLeaves_of_fetch hw]
    rw [step_of_fetch hw] at hf
    have hne : ∀ x, decode w ≠ .ldVxK x := fun x hx => by simpa [hx, listedFault] using listedFault_of_exec hf
    exact ⟨hmem, boundsInv_advance hbounds hw, keyWaitInv_of_same hkey (idle_of_fetch hkey hw hne) rfl rfl⟩

theorem perform_step_of_next (h : step s = .next t) : perform .step s = (t, .ok) := by
  simp only [perform, h, replyOf]

theorem coreInv_perform_step (h : CoreInv s) : CoreInv (perform .step s).1 := by
  cases hstep : step s with
  | next t => exact perform_step_of_next hstep ▸ coreInv_of_step h hstep
  | fault f => exact perform_step_of_fault hstep ▸ coreInv_faultLeaves h hstep
  | refused r => exact absurd hstep (step_ne_refused s r)

/-- What leaves `pc`, the stack, the key-wait state and memory alone keeps every invariant. -/
theorem coreInv_congr (h : CoreInv s) (hpc : t.pc = s.pc) (hstack : t.stack = s.stack) (hseek : t.seeking = s.seeking)
    (hcap : t.captured = s.captured) (hmem : t.mem = s.mem) : CoreInv t := by
  have hfetch : t.fetch = s.fetch := fetch_congr hpc fun a => by rw [State.readByte, hmem, State.readByte]
  simpa only [CoreInv, BoundsInv, KeyWaitInv, State.sp, hpc, hstack, hseek, hcap, hmem, hfetch] using h

/-- A key resolved while seeking is captured while seeking, and in Idle nothing changes (R256, R292). -/
theorem coreInv_resolveKey (h : CoreInv s) (k : KeyIx) : CoreInv (s.resolveKey k) := by
  unfold State.resolveKey
  split
  · next hs =>
    obtain ⟨hmem, hbounds, -, hfetch⟩ := h
    exact ⟨hmem, hbounds, fun _ => hs, hfetch⟩
  · exact h

theorem perform_load_of_lt {bytes : List Byte} (h : romMax < bytes.length) :
    perform (.load bytes) s = (s, .fault .romTooLarge) := by
  simp only [perform, State.load, if_pos h, raise, replyOf]

theorem perform_load_of_le {bytes : List Byte} (h : bytes.length ≤ romMax) :
    perform (.load bytes) s = (s.writeBytes 0x200 bytes, .ok) := by
  simp only [perform, State.load, if_neg (Nat.not_lt.2 h), replyOf]

/-- A program that fits ends at most at 0xFFF; an idle core stays idle (R302). -/
theorem coreInv_load (h : CoreInv s) (hidle : s.seeking = false) (bytes : List Byte) :
    CoreInv (perform (.load bytes) s).1 := by
  obtain hlt | hle := Nat.lt_or_ge romMax bytes.length
  · exact perform_load_of_lt hlt ▸ h
  obtain ⟨hmem, hbounds, hkey⟩ := h
  have hend : 0x200 + bytes.length ≤ memTop + 1 := Nat.add_le_add_left hle 0x200
  rw [perform_load_of_le hle, writeBytes_eq]
  exact ⟨writeBytes_wf s _ bytes hmem hend, hbounds, keyWaitInv_of_same hkey hidle rfl rfl⟩

/-- Settles O52: memory lists nothing, the stack is empty, `pc` is 0x200, and the core is idle. -/
theorem resetMeetsInvariants : Obligations.ResetMeetsInvariants :=
  ⟨⟨.nil, List.forall_mem_nil _⟩, ⟨Nat.zero_le _, List.forall_mem_nil _, by decide⟩, keyWaitInv_of_idle rfl rfl⟩

/-- A constructed core differs from reset in the draw counter alone (R300, log entry 23). -/
theorem coreInv_construct (s : State) : CoreInv s.construct := coreInv_congr resetMeetsInvariants rfl rfl rfl rfl rfl

/-- Settles O56: the operations one by one; all but construction, `load`, `step` and `resolve_key` leave alone what the invariants
speak of. -/
theorem hostOperationsKeepInvariants : Obligations.HostOperationsKeepInvariants := by
  intro op s hload h
  cases op with
  | construct => exact coreInv_construct s
  | load bytes => exact coreInv_load h (hload rfl) bytes
  | step => exact coreInv_perform_step h
  | resolveKey k => exact coreInv_resolveKey h k
  | tickTimers | setKeyState | clearDirty => exact coreInv_congr h rfl rfl rfl rfl rfl
  | snapshot | readSeeking => exact h

/-- Operations without a load keep the invariants, from every state that meets them. -/
theorem coreInv_runOps {ops : List HostOp} (hops : ∀ op ∈ ops, op.isLoad = false) (h : CoreInv s) :
    CoreInv (runOps ops s) := by
  induction ops generalizing s with
  | nil => exact h
  | cons op ops ih =>
    obtain ⟨hop, hrest⟩ := List.forall_mem_cons.1 hops
    exact ih hrest (hostOperationsKeepInvariants op s (fun hl => by simp [hop] at hl) h)

/-- Settles O57: the constructed core is idle when the program is loaded, and no operation after it is a load. -/
theorem everyRunMeetsInvariants : Obligations.EveryRunMeetsInvariants := fun bytes ops hops =>
  coreInv_runOps (ops := ops) hops (coreInv_load (coreInv_construct State.reset) rfl bytes)

end Sys2Proof.Machine
end

section
/-! PROOF of O40, O41 and O42: the timer instructions and FX0A (45_input_timer.md R253 to R258). First the words of these
instructions and what the writes leave unchanged; then the statements. -/

namespace Sys2Proof

/-! ### The words of the key and timer instructions (R118) -/

theorem decode_wordXNN_ldVxDt (x : RegIx) : decode (wordXNN 0xF x 0x07#8) = .ldVxDt x := by
  simp [decode_wordXNN_fifteen, decodeFamilyF, fieldX_wordXNN, fieldNN_wordXNN]

theorem decode_wordXNN_ldVxK (x : RegIx) : decode (wordXNN 0xF x 0x0A#8) = .ldVxK x := by
  simp [decode_wordXNN_fifteen, decodeFamilyF, fieldX_wordXNN, fieldNN_wordXNN]

theorem decode_wordXNN_ldDtVx (x : RegIx) : decode (wordXNN 0xF x 0x15#8) = .ldDtVx x := by
  simp [decode_wordXNN_fifteen, decodeFamilyF, fieldX_wordXNN, fieldNN_wordXNN]

theorem decode_wordXNN_ldStVx (x : RegIx) : decode (wordXNN 0xF x 0x18#8) = .ldStVx x := by
  simp [decode_wordXNN_fifteen, decodeFamilyF, fieldX_wordXNN, fieldNN_wordXNN]

end Sys2Proof

namespace Sys2Proof.Machine

/-! ### What the writes leave unchanged -/

theorem setDt_frame (s : State) (b : Byte) : ChangesOnly (· = .dt) s { s with dt := b } := by
  intro p hp
  cases p with
  | dt => exact absurd rfl hp
  | _ => rfl

theorem setSt_frame (s : State) (b : Byte) : ChangesOnly (· = .st) s { s with st := b } := by
  intro p hp
  cases p with
  | st => exact absurd rfl hp
  | _ => rfl

theorem seek_frame (s : State) : ChangesOnly (· = .seeking) s s.seek := by
  intro p hp
  cases p with
  | seeking => exact absurd rfl hp
  | _ => rfl

/-- The rewind changes `pc` alone: it is a jump back by 2 (R254). -/
theorem rewind_frame (s : State) : ChangesOnly (· = .pc) s s.rewind := jump_frame s (s.pc - 2)

theorem endWait_frame (s : State) : ChangesOnly (fun p => p = .captured ∨ p = .seeking) s
    { s with captured := none, seeking := false } := by
  intro p hp
  cases p with
  | captured => exact absurd (.inl rfl) hp
  | seeking => exact absurd (.inr rfl) hp
  | _ => rfl

theorem takeKey_frame (s : State) (x : RegIx) (k : KeyIx) :
    ChangesOnly (fun p => p = .reg x ∨ p = .captured ∨ p = .seeking) s (s.takeKey x k) :=
  changesOnly_comp (endWait_frame s) (setV_frame _ x _) (fun _ => .inr) (fun _ => .inl)

/-- `V[X]` takes the number of the key (R254). -/
theorem takeKey_getV_toNat (s : State) (x : RegIx) (k : KeyIx) : ((s.takeKey x k).getV x).toNat = k.val := by
  rw [State.takeKey, setV_getV_self]
  exact Nat.mod_eq_of_lt (by omega)

/-! ### The statements -/

/-- Settles O40: the byte written is `DT`. -/
theorem readDelayTimer : Obligations.ReadDelayTimer := fun x =>
  ⟨decode_wordXNN_ldVxDt x, fun s => ⟨_, rfl, setV_getV_self s x s.dt, setV_frame s x s.dt⟩⟩

/-- Settles O42: each timer takes `V[X]`. -/
theorem setTimers : Obligations.SetTimers := fun x =>
  ⟨decode_wordXNN_ldDtVx x, decode_wordXNN_ldStVx x, fun s =>
    ⟨⟨_, rfl, rfl, setDt_frame s _⟩, ⟨_, rfl, rfl, setSt_frame s _⟩⟩⟩

/-- Settles O41: FX0A seeks and rewinds with no captured key, takes the key with one, and the step of a waiting FX0A is the
seeking alone. -/
theorem waitKeyTransitions : Obligations.WaitKeyTransitions := by
  refine fun x => ⟨decode_wordXNN_ldVxK x, fun s => ⟨fun hc => ?_, fun k hc => ?_, fun hc hw => ?_⟩⟩
  · exact ⟨_, exec_ldVxK_of_none x hc, rfl, rfl,
      changesOnly_comp (seek_frame s) (rewind_frame s.seek) (fun _ => .inl) (fun _ => .inr)⟩
  · exact ⟨_, exec_ldVxK_of_some x hc, takeKey_getV_toNat s x k, rfl, rfl, takeKey_frame s x k⟩
  · exact ⟨_, step_ldVxK_of_none hw (decode_wordXNN_ldVxK x) hc, rfl, seek_frame s⟩

end Sys2Proof.Machine
end

section
/-! PROOF of O58, O46 and O49: the host's operations (60_exceptions.md R281, R287, R291 to R295). First what each operation leaves
unchanged; then the wait that no key resolves, whose frame is proved for one operation and carried through any sequence of them;
then the statements. -/

namespace Sys2Proof.Machine

variable {s t : State} {op : HostOp}

/-! ### Frames that do nothing, or say less -/

theorem changesOnly_refl (w : Part → Prop) (s : State) : ChangesOnly w s s := fun p _ => by cases p <;> rfl

theorem changesOnly_mono {w₁ w : Part → Prop} (h : ChangesOnly w₁ s t) (hw : ∀ p, w₁ p → w p) : ChangesOnly w s t :=
  fun p hp => h p (mt (hw p) hp)

/-! ### What each host operation writes (R281, R291, R294) -/

/-- A timer counts down as a natural number does: by 1, and not below 0 (R281). -/
theorem countDown_toNat (b : Byte) : (countDown b).toNat = b.toNat - 1 := by
  unfold countDown
  split <;> bv_omega

/-- A tick writes one timer, then the other (R281). -/
theorem tickTimers_frame (s : State) : ChangesOnly (fun p => p = .dt ∨ p = .st) s s.tickTimers :=
  changesOnly_comp (setDt_frame s (countDown s.dt)) (setSt_frame { s with dt := countDown s.dt } (countDown s.st))
    (fun _ => .inl) (fun _ => .inr)

theorem setKeyState_frame (s : State) (k : KeyIx) (b : Bool) : ChangesOnly (· = .key k) s (s.setKeyState k b) := by
  intro p hp
  cases p with
  | key j =>
    have hne : k.val ≠ j.val := fun h => hp (congrArg Part.key (Fin.ext h.symm))
    exact Vector.getElem_set_ne k.isLt j.isLt hne
  | _ => rfl

theorem clearDirty_frame (s : State) : ChangesOnly (· = .dirty) s s.clearDirty := by
  intro p hp
  cases p with
  | dirty => exact absurd rfl hp
  | _ => rfl

/-! ### The wait that no key resolves (R287, R313, D12) -/

/-- A wait in FX0A, with no key captured yet. -/
structure UnresolvedWait (s : State) : Prop where
  inv : KeyWaitInv s
  seeking : s.seeking = true
  captured : s.captured = none

/-- What can still change while FX0A waits: the timers, `dirty` and the keys. -/
def Part.changesInWait : Part → Prop
  | .dt | .st | .dirty | .key _ => True
  | .reg _ | .index | .pc | .stack | .pixel _ _ | .seeking | .captured | .byte _ | .draws => False

/-- Seeking again changes nothing (R255). -/
theorem seek_of_seeking (h : s.seeking = true) : s.seek = s := by
  rw [State.seek, ← h]

/-- A step of an unresolved wait runs the FX0A at `pc` again, and so changes nothing at all. -/
theorem perform_step_of_unresolvedWait (h : UnresolvedWait s) : perform .step s = (s, .ok) := by
  obtain ⟨w, x, hw, hx⟩ := h.inv.2 h.seeking
  have hstep : step s = .next s.seek := step_ldVxK_of_none hw hx h.captured
  rw [perform_step_of_next hstep, seek_of_seeking h.seeking]

/-- No operation but construction, `load` and `resolve_key` changes more in a wait. -/
theorem perform_frame_of_unresolvedWait (hop : op.keepsWaiting = true) (h : UnresolvedWait s) :
    ChangesOnly Part.changesInWait s (perform op s).1 := by
  cases op with
  | construct | load | resolveKey => cases hop
  | step =>
    rw [perform_step_of_unresolvedWait h]
    exact changesOnly_refl _ s
  | tickTimers => exact changesOnly_mono (tickTimers_frame s) (by rintro _ (rfl | rfl) <;> trivial)
  | setKeyState k b => exact changesOnly_mono (setKeyState_frame s k b) (by rintro _ rfl; trivial)
  | clearDirty => exact changesOnly_mono (clearDirty_frame s) (by rintro _ rfl; trivial)
  | snapshot | readSeeking => exact changesOnly_refl _ s

/-- That frame names no part which a wait rests on: `pc`, memory, `seeking` and the captured key. -/
theorem unresolvedWait_of_frame (hf : ChangesOnly Part.changesInWait s t) (h : UnresolvedWait s) : UnresolvedWait t := by
  have hpc : t.pc = s.pc := hf .pc id
  have hbyte : ∀ a, t.readByte a = s.readByte a := fun a => hf (.byte a) id
  have hseek : t.seeking = s.seeking := hf .seeking id
  have hcap : t.captured = s.captured := hf .captured id
  refine ⟨?_, hseek.trans h.seeking, hcap.trans h.captured⟩
  simpa only [KeyWaitInv, hseek, hcap, fetch_congr hpc hbyte] using h.inv

/-- So each operation finds the wait as the one before it did, and the frame holds of them all. -/
theorem runOps_frame_of_unresolvedWait {ops : List HostOp} (hops : ∀ op ∈ ops, op.keepsWaiting = true)
    (h : UnresolvedWait s) : ChangesOnly Part.changesInWait s (runOps ops s) := by
  induction ops generalizing s with
  | nil => exact changesOnly_refl _ s
  | cons op ops ih =>
    obtain ⟨hop, hrest⟩ := List.forall_mem_cons.1 hops
    have hf := perform_frame_of_unresolvedWait hop h
    exact changesOnly_comp hf (ih hrest (unresolvedWait_of_frame hf h)) (fun _ => id) (fun _ => id)

/-! ### The statements -/

/-- Settles O58: the whole run changes only timers, `dirty` and keys, and the wait holds at its end. -/
theorem unresolvedWaitHolds : Obligations.UnresolvedWaitHolds := by
  intro ops s hops hinv hseek hcap
  have h : UnresolvedWait s := ⟨hinv, hseek, hcap⟩
  have hf := runOps_frame_of_unresolvedWait hops h
  have hend := unresolvedWait_of_frame hf h
  exact ⟨hf .pc id, fun r => hf (.reg r) id, hf .index id, hf .stack id, fun a => hf (.byte a) id, hend.seeking,
    hend.captured⟩

/-- Settles O46: each timer counts down by itself. -/
theorem tickCountsDown : Obligations.TickCountsDown := fun s =>
  ⟨rfl, countDown_toNat s.dt, countDown_toNat s.st, tickTimers_frame s⟩

/-- Settles O49: a picture is read off the state, and 00E0 leaves a state whose display is off and whose flag is set. -/
theorem snapshotAndClearDirty : Obligations.SnapshotAndClearDirty := by
  refine fun s => ⟨rfl, rfl, ⟨_, _, rfl, rfl, fun _ _ => rfl⟩, fun t ht => ?_, rfl, clearDirty_frame s⟩
  obtain rfl := Host.Outcome.next.inj ht
  exact ⟨_, rfl, pixel_off⟩

end Sys2Proof.Machine
end

section
/-! PROOF of O51: the reset state, part by part, and construction, which is that state with the draw counter going on
(70_reset_and_hazards.md R300; 10_state.md R46). -/

namespace Sys2Proof.Machine

theorem font_length : font.length = 80 := by decide

/-- Memory at the bottom is the font at reset (R46); `resetByte_above` is the rest. -/
theorem resetByte_of_lt {a : Nat} (h : a < font.length) : resetByte a = font[a] := List.getD_eq_getElem _ _ h

theorem reset_getV (r : RegIx) : State.reset.getV r = 0 := Vector.getElem_replicate _

theorem reset_key (k : KeyIx) : State.reset.key[k] = false := Vector.getElem_replicate _

theorem reset_readByte (a : Nat) : State.reset.readByte a = resetByte a := read_nil a

/-- The state before construction survives in the draw counter alone (R300; log entry 23). -/
theorem eq_reset_with_draws {s t : State} (h : t = State.reset ∨ t = (perform .construct s).1) :
    ∃ n, t = { State.reset with draws := n } := by
  obtain rfl | rfl := h
  · exact ⟨0, rfl⟩
  · exact ⟨s.draws, rfl⟩

/-- Settles O51: each part is the reset state's, since the statement does not speak of the draw counter. -/
theorem constructionResets : Obligations.ConstructionResets := by
  intro s t ht
  obtain ⟨n, rfl⟩ := eq_reset_with_draws ht
  refine ⟨reset_getV, rfl, rfl, rfl, rfl, rfl, pixel_off, rfl, reset_key, rfl, rfl, fun a h => ?_, fun a h => ?_, font_length⟩
  · exact (reset_readByte a).trans (resetByte_of_lt h)
  · exact (reset_readByte a).trans (resetByte_above a (font_length ▸ h))

end Sys2Proof.Machine
end

section
/-! PROOF of O1, O2 and O3: the encoder and the decoder undo each other (30_encoding.md R110 to R121). First the decoder on built
words, family by family, for the operands that earlier proofs leave out; then words rebuilt from their fields; then the statements. -/

namespace Sys2Proof

variable {w : Word} {f : Nat}

/-! ### The words of families 0, 2, 8, B, C, E and F (R113 to R118) -/

theorem decode_wordNNN_two (nnn : Addr) : decode (wordNNN 0x2 nnn) = .call nnn := by
  simp [decode, fieldF_wordNNN, fieldNNN_wordNNN]

theorem decode_wordNNN_eleven (nnn : Addr) : decode (wordNNN 0xB nnn) = .jpV0 nnn := by
  simp [decode, fieldF_wordNNN, fieldNNN_wordNNN]

theorem decode_wordXNN_twelve (x : RegIx) (nn : Byte) : decode (wordXNN 0xC x nn) = .rnd x nn := by
  simp [decode, fieldF_wordXNN, fieldX_wordXNN, fieldNN_wordXNN]

/-- In family 0 the 12-bit field is the whole word (R114). -/
theorem wordNNN_zero_eq_iff (nnn a : Addr) : wordNNN 0x0 nnn = a.setWidth 16 ↔ nnn = a := by
  rw [← BitVec.toNat_inj, ← BitVec.toNat_inj, wordNNN_toNat 0 (by decide), BitVec.toNat_setWidth_of_le (by decide)]
  omega

theorem decode_wordNNN_sys {nnn : Addr} (h : nnn ∉ namedSys) : decode (wordNNN 0x0 nnn) = .sys nnn := by
  have hcls : wordNNN 0x0 nnn ≠ 0x00E0#16 := fun he => h (by simp [(wordNNN_zero_eq_iff nnn 0x0E0#12).1 he, namedSys])
  have hret : wordNNN 0x0 nnn ≠ 0x00EE#16 := fun he => h (by simp [(wordNNN_zero_eq_iff nnn 0x0EE#12).1 he, namedSys])
  simp [decode, decodeFamily0, fieldF_wordNNN, fieldNNN_wordNNN, hcls, hret]

theorem decode_wordXYN_eight_one (x y : RegIx) : decode (wordXYN 0x8 x y 0x1#4) = .orReg x y := by
  simp [decode_wordXYN_eight, decodeFamily8, fieldX_wordXYN, fieldY_wordXYN, fieldN_wordXYN]

theorem decode_wordXYN_eight_two (x y : RegIx) : decode (wordXYN 0x8 x y 0x2#4) = .andReg x y := by
  simp [decode_wordXYN_eight, decodeFamily8, fieldX_wordXYN, fieldY_wordXYN, fieldN_wordXYN]

theorem decode_wordXYN_eight_three (x y : RegIx) : decode (wordXYN 0x8 x y 0x3#4) = .xorReg x y := by
  simp [decode_wordXYN_eight, decodeFamily8, fieldX_wordXYN, fieldY_wordXYN, fieldN_wordXYN]

theorem decode_wordXYN_eight_six (x y : RegIx) : decode (wordXYN 0x8 x y 0x6#4) = .shr x y := by
  simp [decode_wordXYN_eight, decodeFamily8, fieldX_wordXYN, fieldY_wordXYN, fieldN_wordXYN]

theorem decode_wordXYN_eight_fourteen (x y : RegIx) : decode (wordXYN 0x8 x y 0xE#4) = .shl x y := by
  simp [decode_wordXYN_eight, decodeFamily8, fieldX_wordXYN, fieldY_wordXYN, fieldN_wordXYN]

/-- The fallback arm of family 8 takes the `N` that `aluOps` leaves out (R115). -/
theorem decodeFamily8_of_not_mem (h : fieldN w ∉ aluOps) : decodeFamily8 w = .nop8 (fieldX w) (fieldY w) (fieldN w) := by
  unfold decodeFamily8
  simp only [aluOps, List.mem_cons, ← BitVec.toNat_inj, BitVec.reduceToNat, not_or] at h
  split
  case h_10 => rfl
  all_goals omega

theorem decode_wordXYN_nop8 (x y : RegIx) {n : Nibble} (h : n ∉ aluOps) : decode (wordXYN 0x8 x y n) = .nop8 x y n := by
  have hn : fieldN (wordXYN 0x8 x y n) = n := fieldN_wordXYN 0x8 (by decide) x y n
  rw [decode_wordXYN_eight, decodeFamily8_of_not_mem (hn.symm ▸ h), hn, fieldX_wordXYN _ (by decide), fieldY_wordXYN _ (by decide)]

theorem decode_wordXNN_fourteen (x : RegIx) (nn : Byte) : decode (wordXNN 0xE x nn) =
    if nn = 0x9E#8 then .skp x else if nn = 0xA1#8 then .sknp x else .nopE x nn := by
  simp [decode, decodeFamilyE, fieldF_wordXNN, fieldX_wordXNN, fieldNN_wordXNN]

theorem decode_wordXNN_skp (x : RegIx) : decode (wordXNN 0xE x 0x9E#8) = .skp x := decode_wordXNN_fourteen x _

theorem decode_wordXNN_sknp (x : RegIx) : decode (wordXNN 0xE x 0xA1#8) = .sknp x := decode_wordXNN_fourteen x _

theorem decode_wordXNN_nopE (x : RegIx) {nn : Byte} (h : nn ∉ keyOps) : decode (wordXNN 0xE x nn) = .nopE x nn := by
  simp only [keyOps, List.mem_cons, not_or] at h
  rw [decode_wordXNN_fourteen, if_neg h.1, if_neg h.2.1]

theorem decode_wordXNN_nopF (x : RegIx) {nn : Byte} (h : nn ∉ miscOps) : decode (wordXNN 0xF x nn) = .nopF x nn := by
  simp only [miscOps, List.mem_cons, not_or] at h
  simp [decode_wordXNN_fifteen, decodeFamilyF, fieldX_wordXNN, fieldNN_wordXNN, h]

/-! ### A word is built of its fields (R111) -/

theorem wordNNN_fieldNNN (hf : (fieldF w).toNat = f) : wordNNN f (fieldNNN w) = w := by
  have hlt := w.isLt
  rw [fieldF_toNat] at hf
  apply BitVec.eq_of_toNat_eq
  rw [wordNNN_toNat f (by omega), fieldNNN_toNat]
  omega

theorem wordXNN_fields {nn : Byte} (hf : (fieldF w).toNat = f) (hnn : fieldNN w = nn) : wordXNN f (fieldX w) nn = w := by
  have hlt := w.isLt
  rw [fieldF_toNat] at hf
  apply BitVec.eq_of_toNat_eq
  rw [wordXNN_toNat f (by omega), fieldX_val, ← hnn, fieldNN_toNat]
  omega

theorem wordXYN_fields {n : Nibble} (hf : (fieldF w).toNat = f) (hn : fieldN w = n) :
    wordXYN f (fieldX w) (fieldY w) n = w := by
  have hlt := w.isLt
  rw [fieldF_toNat] at hf
  apply BitVec.eq_of_toNat_eq
  rw [wordXYN_toNat f (by omega), fieldX_val, fieldY_val, ← hn, fieldN_toNat]
  omega

/-! ### What each family decodes to encodes its word (R114 to R118) -/

/-- The instruction is well-formed, and `w` is its word. -/
def IsInstrOf (w : Word) (i : Instr) : Prop := wellFormed i = true ∧ encode i = w

theorem isInstrOf_decodeFamily0 (hf : (fieldF w).toNat = 0x0) : IsInstrOf w (decodeFamily0 w) := by
  have hw : wordNNN 0x0 (fieldNNN w) = w := wordNNN_fieldNNN hf
  unfold decodeFamily0
  split_ifs with hcls hret
  · exact ⟨rfl, hcls.symm⟩
  · exact ⟨rfl, hret.symm⟩
  · refine ⟨?_, hw⟩
    have h0 : fieldNNN w ≠ 0x0E0#12 := fun h => hcls (hw.symm.trans ((wordNNN_zero_eq_iff _ 0x0E0#12).2 h))
    have hE : fieldNNN w ≠ 0x0EE#12 := fun h => hret (hw.symm.trans ((wordNNN_zero_eq_iff _ 0x0EE#12).2 h))
    simp [wellFormed, namedSys, h0, hE]

theorem isInstrOf_decodeFamily5 (hf : (fieldF w).toNat = 0x5) : IsInstrOf w (decodeFamily5 w) := by
  unfold decodeFamily5
  split_ifs with hn
  · exact ⟨rfl, wordXYN_fields hf hn⟩
  · exact ⟨by simpa [wellFormed] using hn, wordXYN_fields hf rfl⟩

theorem isInstrOf_decodeFamily9 (hf : (fieldF w).toNat = 0x9) : IsInstrOf w (decodeFamily9 w) := by
  unfold decodeFamily9
  split_ifs with hn
  · exact ⟨rfl, wordXYN_fields hf hn⟩
  · exact ⟨by simpa [wellFormed] using hn, wordXYN_fields hf rfl⟩

theorem isInstrOf_decodeFamily8 (hf : (fieldF w).toNat = 0x8) : IsInstrOf w (decodeFamily8 w) := by
  by_cases hn : fieldN w ∈ aluOps
  · simp only [aluOps, List.mem_cons, List.not_mem_nil, or_false] at hn
    rcases hn with hn | hn | hn | hn | hn | hn | hn | hn | hn <;>
      (rw [decodeFamily8, hn]; exact ⟨rfl, wordXYN_fields hf hn⟩)
  · rw [decodeFamily8_of_not_mem hn]
    exact ⟨by simpa [wellFormed] using hn, wordXYN_fields hf rfl⟩

theorem isInstrOf_decodeFamilyE (hf : (fieldF w).toNat = 0xE) : IsInstrOf w (decodeFamilyE w) := by
  unfold decodeFamilyE
  split_ifs with hskp hsknp
  · exact ⟨rfl, wordXNN_fields hf hskp⟩
  · exact ⟨rfl, wordXNN_fields hf hsknp⟩
  · exact ⟨by simp [wellFormed, keyOps, hskp, hsknp], wordXNN_fields hf rfl⟩

theorem isInstrOf_decodeFamilyF (hf : (fieldF w).toNat = 0xF) : IsInstrOf w (decodeFamilyF w) := by
  by_cases hnn : fieldNN w ∈ miscOps
  · simp only [miscOps, List.mem_cons, List.not_mem_nil, or_false] at hnn
    rcases hnn with hnn | hnn | hnn | hnn | hnn | hnn | hnn | hnn | hnn <;>
      (rw [decodeFamilyF, hnn]; exact ⟨rfl, wordXNN_fields hf hnn⟩)
  · have hw := wordXNN_fields hf rfl
    have hdec : decodeFamilyF w = .nopF (fieldX w) (fieldNN w) := by
      rw [← decode_wordXNN_nopF (fieldX w) hnn, hw]
      simp [decode, hf]
    rw [hdec]
    exact ⟨by simpa [wellFormed] using hnn, hw⟩

/-- The decoder dispatches on the family, and each family's word is rebuilt from its fields (R113, R120). -/
theorem isInstrOf_decode (w : Word) : IsInstrOf w (decode w) := by
  have hlt : (fieldF w).toNat < 16 := (fieldF w).isLt
  unfold decode
  split
  next hf => exact isInstrOf_decodeFamily0 hf
  next hf => exact ⟨rfl, wordNNN_fieldNNN hf⟩
  next hf => exact ⟨rfl, wordNNN_fieldNNN hf⟩
  next hf => exact ⟨rfl, wordXNN_fields hf rfl⟩
  next hf => exact ⟨rfl, wordXNN_fields hf rfl⟩
  next hf => exact isInstrOf_decodeFamily5 hf
  next hf => exact ⟨rfl, wordXNN_fields hf rfl⟩
  next hf => exact ⟨rfl, wordXNN_fields hf rfl⟩
  next hf => exact isInstrOf_decodeFamily8 hf
  next hf => exact isInstrOf_decodeFamily9 hf
  next hf => exact ⟨rfl, wordNNN_fieldNNN hf⟩
  next hf => exact ⟨rfl, wordNNN_fieldNNN hf⟩
  next hf => exact ⟨rfl, wordXNN_fields hf rfl⟩
  next hf => exact ⟨rfl, wordXYN_fields hf rfl⟩
  next hf => exact isInstrOf_decodeFamilyE hf
  next => exact isInstrOf_decodeFamilyF (by grind)

/-! ### The statements -/

/-- Settles O1: each constructor's word is one of the built words above; a fallback row's check keeps it out of the listed rows. -/
theorem decodeOfEncode : Obligations.DecodeOfEncode := by
  intro i hi
  cases i with
  | cls | ret => rfl
  | jp nnn => exact decode_wordNNN_one nnn
  | call nnn => exact decode_wordNNN_two nnn
  | seImm x nn => exact decode_wordXNN_three x nn
  | sneImm x nn => exact decode_wordXNN_four x nn
  | seReg x y => exact decode_wordXYN_five x y 0
  | ldImm x nn => exact decode_wordXNN_six x nn
  | addImm x nn => exact decode_wordXNN_seven x nn
  | ldReg x y => exact decode_wordXYN_eight_zero x y
  | orReg x y => exact decode_wordXYN_eight_one x y
  | andReg x y => exact decode_wordXYN_eight_two x y
  | xorReg x y => exact decode_wordXYN_eight_three x y
  | addReg x y => exact decode_wordXYN_eight_four x y
  | sub x y => exact decode_wordXYN_eight_five x y
  | shr x y => exact decode_wordXYN_eight_six x y
  | subn x y => exact decode_wordXYN_eight_seven x y
  | shl x y => exact decode_wordXYN_eight_fourteen x y
  | sneReg x y => exact decode_wordXYN_nine x y 0
  | ldI nnn => exact decode_wordNNN_ten nnn
  | jpV0 nnn => exact decode_wordNNN_eleven nnn
  | rnd x nn => exact decode_wordXNN_twelve x nn
  | drw x y n => exact decode_wordXYN_thirteen x y n
  | skp x => exact decode_wordXNN_skp x
  | sknp x => exact decode_wordXNN_sknp x
  | ldVxDt x => exact decode_wordXNN_ldVxDt x
  | ldVxK x => exact decode_wordXNN_ldVxK x
  | ldDtVx x => exact decode_wordXNN_ldDtVx x
  | ldStVx x => exact decode_wordXNN_ldStVx x
  | addI x => exact decode_wordXNN_addI x
  | ldF x => exact decode_wordXNN_ldF x
  | ldB x => exact decode_wordXNN_ldB x
  | ldMemRegs x => exact decode_wordXNN_ldMemRegs x
  | ldRegsMem x => exact decode_wordXNN_ldRegsMem x
  | sys nnn => exact decode_wordNNN_sys (by simpa [wellFormed] using hi)
  | nop5 x y n => exact (decode_wordXYN_five x y n).trans (if_neg (by simpa [wellFormed] using hi))
  | nop8 x y n => exact decode_wordXYN_nop8 x y (by simpa [wellFormed] using hi)
  | nop9 x y n => exact (decode_wordXYN_nine x y n).trans (if_neg (by simpa [wellFormed] using hi))
  | nopE x nn => exact decode_wordXNN_nopE x (by simpa [wellFormed] using hi)
  | nopF x nn => exact decode_wordXNN_nopF x (by simpa [wellFormed] using hi)

/-- Settles O2: `isInstrOf_decode` at every word. -/
theorem encodeOfDecode : Obligations.EncodeOfDecode := isInstrOf_decode

theorem decodeBytes_pair {hi lo : Byte} {i : Instr} (h : decode (wordOfBytes hi lo) = i) :
    decodeBytes [hi, lo] = .ok (i, []) := by
  rw [decodeBytes, h]

/-- Settles O3: the decoder run on the word of each byte pair. -/
theorem sampleWordsDecode : Obligations.SampleWordsDecode := by
  refine ⟨decodeBytes_pair ?_, decodeBytes_pair ?_, decodeBytes_pair ?_, decodeBytes_pair ?_, decodeBytes_pair ?_,
    decodeBytes_pair ?_, decodeBytes_pair ?_, decodeBytes_pair ?_, decodeBytes_pair ?_, decodeBytes_pair ?_,
    decodeBytes_pair ?_, decodeBytes_pair ?_, decodeBytes_pair ?_, decodeBytes_pair ?_, decodeBytes_pair ?_, rfl⟩ <;> decide

end Sys2Proof
end

section
/-! PROOF of O53 and O54: two invariants of a step. -/

namespace Sys2Proof.Machine

/-- Settles O53: a step stores inside memory alone, and such a write keeps the canonical form. -/
theorem stepKeepsMemoryCanonical : Obligations.StepKeepsMemoryCanonical := fun _ _ h hstep =>
  stepEffect_mem_wf h (stepEffect_of_next hstep)

/-- Settles O54: the fetch leaves `pc` at most at 0x1000, and from there each effect on `pc` and the stack stays within the
bounds. -/
theorem stepKeepsBounds : Obligations.StepKeepsBounds := fun _ _ h hstep =>
  stepEffect_boundsInv h (stepEffect_of_next hstep)

end Sys2Proof.Machine
end

section
/-! PROOF of O5, O8, O9 and O10: the step (40_step_cycle.md R140 to R147): no-ops, what a faulting step leaves, the self-jump, and
the step after a placed word (log entry 21). -/

namespace Sys2Proof.Machine

variable {s : State} {w : Word} {nnn : Addr}

/-! ### The self-jump halt (R146, R147) -/

/-- The jump writes back the `pc` that the fetch advanced (R142, R162). -/
theorem step_of_selfJump (hw : s.fetch = some w) (hd : decode w = .jp nnn) (hpc : addrWord nnn = s.pc) :
    step s = .next s := by
  rw [step_of_fetch hw, hd, exec, execJp, hpc]
  rfl

/-- A state at the halt has a jump to its own address before it (R147). -/
theorem selfJump_of_atHalt (h : s.atHalt = true) :
    ∃ w nnn, s.fetch = some w ∧ decode w = .jp nnn ∧ addrWord nnn = s.pc := by
  unfold State.atHalt at h
  cases hw : s.fetch with
  | none => simp [hw] at h
  | some w =>
    cases hd : decode w with
    | jp nnn =>
      simp only [hw, hd, Bool.and_eq_true, beq_iff_eq] at h
      exact ⟨w, nnn, rfl, hd, h.2⟩
    | _ => simp [hw, hd] at h

/-! ### The placed word (log entry 21) -/

theorem placePc_toNat_le (s : State) : s.placePc.toNat ≤ 0xFFE := by
  unfold State.placePc memTop
  split
  · decide
  · omega

theorem placePc_eq (h : s.pc.toNat ≤ 0xFFE) : s.placePc = s.pc :=
  if_neg (by rw [memTop]; omega)

/-- Placing a word is a jump and a store of its two bytes, high byte first (R83). -/
theorem placeWord_eq (s : State) (w : Word) : s.placeWord w =
    (s.jump s.placePc).writeBytes s.placePc.toNat [highByte w, lowByte w] := rfl

theorem fetch_placeWord (s : State) (w : Word) : (s.placeWord w).fetch = some w := by
  refine (fetch_eq_some _ w).2 ⟨placePc_toNat_le s, ?_⟩
  have hpc : (s.placeWord w).pc = s.placePc := rfl
  have hhi := writeBytes_readByte_add (s.jump s.placePc) s.placePc.toNat (bs := [highByte w, lowByte w]) (k := 0) (by simp)
  have hlo := writeBytes_readByte_add (s.jump s.placePc) s.placePc.toNat (bs := [highByte w, lowByte w]) (k := 1) (by simp)
  rw [hpc, placeWord_eq, hlo]
  exact (wordOfBytes_high_low w).symm.trans (congrArg (wordOfBytes · _) hhi.symm)

/-- Where the fetch does not fault the placement leaves `pc`, and so stores two bytes and does nothing else. -/
theorem placeWord_frame (w : Word) (h : s.pc.toNat ≤ 0xFFE) :
    ChangesOnly (fun p => p.isByteOf s.pc.toNat 2) s (s.placeWord w) := by
  rw [placeWord_eq, placePc_eq h]
  exact writeBytes_frame s s.pc.toNat [highByte w, lowByte w]

theorem tableWord_of_lt {n : Nat} (h : n < 65536) : tableWord 16 n = BitVec.ofNat 16 n :=
  congrArg _ (Nat.mod_eq_of_lt h)

/-! ### The statements -/

/-- Settles O5: each of the six rows is in the no-op space. -/
theorem noOpsComplete : Obligations.NoOpsComplete := by
  intro x y n nn nnn s i hi
  have hno : i.isNoOp = true := by
    simp only [List.mem_cons, List.not_mem_nil, or_false] at hi
    rcases hi with rfl | rfl | rfl | rfl | rfl | rfl <;> rfl
  exact ⟨s, exec_of_isNoOp hno s, changesOnly_refl _ s⟩

/-- Settles O8: the state left is `State.faultLeaves`, which is the state itself where there is no word to fetch, and else the
advance. -/
theorem faultingStepLeaves : Obligations.FaultingStepLeaves := by
  intro s f hf
  rw [perform_step_of_fault hf]
  refine ⟨rfl, fun hnone => ?_, fun hsome => ?_⟩
  · simp only [State.faultLeaves, hnone]
  · obtain ⟨w, hw⟩ := Option.ne_none_iff_exists'.1 hsome
    rw [faultLeaves_of_fetch hw]
    exact ⟨advance_pc s, advance_frame s⟩

/-- Settles O9: both parts are `step_of_selfJump`. -/
theorem selfJumpIsFixedPoint : Obligations.SelfJumpIsFixedPoint := by
  refine ⟨fun s nnn hw hpc => ?_, fun s h => ?_⟩
  · exact step_of_selfJump hw (decode_wordNNN_one nnn) (BitVec.eq_of_toNat_eq ((addrWord_toNat nnn).trans hpc.symm))
  · obtain ⟨w, nnn, hw, hd, hpc⟩ := selfJump_of_atHalt h
    exact step_of_selfJump hw hd hpc

/-- Settles O10: the next fetch reads the placed word. -/
theorem placedWordRuns : Obligations.PlacedWordRuns := by
  intro s w hw
  rw [State.withFetchWord, tableWord_of_lt hw]
  exact ⟨step_of_fetch (fetch_placeWord s _), placeWord_frame _⟩

end Sys2Proof.Machine
end

section
/-! PROOF of O12, O14 and O17: calls and the offset jump (41_flow.md R161, R163, R168). -/

namespace Sys2Proof.Machine

variable {s : State}

/-- A call writes the stack and `pc` alone (R163). -/
theorem call_frame (s : State) (nnn : Addr) :
    ChangesOnly (fun p => p = .pc ∨ p = .stack) s ((s.push s.pc).jump (addrWord nnn)) :=
  setStackPc_frame s (s.pc :: s.stack) (addrWord nnn)

theorem exec_call_of_full (nnn : Addr) (h : stackDepth ≤ s.sp) : exec (.call nnn) s = .fault .stackOverflow := if_pos h

/-- The target of BNNN is the exact sum, which 16 bits hold (R168, D25). -/
theorem jpV0_target_toNat (nnn : Addr) (b : Byte) : (addrWord nnn + b.setWidth 16).toNat = nnn.toNat + b.toNat := by
  have hn := nnn.isLt
  have hb := b.isLt
  rw [BitVec.toNat_add, addrWord_toNat, BitVec.toNat_setWidth]
  omega

/-- Settles O12: the new stack is the advanced `pc` on top of the old one. -/
theorem callPushesAndJumps : Obligations.CallPushesAndJumps := by
  refine fun nnn => ⟨decode_wordNNN_two nnn, fun s => ⟨fun hfull => exec_call_of_full nnn hfull.ge, fun hroom => ?_⟩⟩
  have hstack : ((s.push s.pc).jump (addrWord nnn)).stack = s.pc :: s.stack := rfl
  exact ⟨_, (callWith_eq_next _ nnn).2 ⟨hroom, rfl⟩, addrWord_toNat nnn, rfl, stackEntry_newest hstack,
    fun k hk => stackEntry_older hstack hk, call_frame s nnn⟩

/-- Settles O14: the newest entry that the return pops is the one the call pushed. -/
theorem callThenReturn : Obligations.CallThenReturn := by
  intro nnn s t u _ hcall hu
  obtain ⟨-, rfl⟩ := (callWith_eq_next _ nnn).1 hcall
  exact ⟨_, execRet_eq_next.2 ⟨s.pc, s.stack, hu, rfl⟩, rfl, rfl⟩

/-- Settles O17: the target is the sum of `NNN` and `V[0]`, with no wrap. -/
theorem jumpOffsetAddsV0 : Obligations.JumpOffsetAddsV0 := fun nnn =>
  ⟨decode_wordNNN_eleven nnn, fun s => ⟨_, rfl, jpV0_target_toNat nnn _, jump_frame s _⟩⟩

end Sys2Proof.Machine
end

section
/-! PROOF of O21, O25 and O26: logic, shifts and the random byte (42_alu.md R186 to R188, R191, R193, R195). -/

namespace Sys2Proof.Machine

/-! ### Shifts and evicted bits as numbers -/

theorem evictedLow_toNat (b : Byte) : (evictedLow b).toNat = b.toNat % 2 := by
  rw [evictedLow, flagByte_eq, BitVec.getLsbD, Nat.testBit_zero]
  obtain h | h := Nat.mod_two_eq_zero_or_one b.toNat <;> simp [h]

theorem evictedHigh_toNat (b : Byte) : (evictedHigh b).toNat = b.toNat / 128 := by
  have hb := b.isLt
  rw [evictedHigh, flagByte_eq, BitVec.getLsbD, Nat.testBit_eq_decide_div_mod_eq]
  have hbit : b.toNat / 2 ^ 7 % 2 = b.toNat / 128 := by omega
  rw [hbit]
  obtain h | h : b.toNat / 128 = 0 ∨ b.toNat / 128 = 1 := by omega
  all_goals simp [h]

theorem shiftRight_one_toNat (b : Byte) : (b >>> 1).toNat = b.toNat / 2 := by
  rw [BitVec.toNat_ushiftRight, Nat.shiftRight_one]

theorem shiftLeft_one_toNat (b : Byte) : (b <<< 1).toNat = 2 * b.toNat % 256 := by
  rw [BitVec.toNat_shiftLeft, Nat.shiftLeft_eq, Nat.mul_comm]

/-! ### The random byte (R195, D22) -/

theorem draw_frame (s : State) : ChangesOnly (· = .draws) s s.draw.2 := by
  intro p hp
  cases p with
  | draws => exact absurd rfl hp
  | _ => rfl

/-! ### The statements -/

/-- Settles O21: the bitwise operation of `BitVec` in each arm. -/
theorem logicBitwise : Obligations.LogicBitwise := by
  refine fun x y => ⟨decode_wordXYN_eight_one x y, decode_wordXYN_eight_two x y, decode_wordXYN_eight_three x y, fun s =>
    ⟨⟨_, rfl, setV_frame s x _, fun k => ?_⟩, ⟨_, rfl, setV_frame s x _, fun k => ?_⟩, ⟨_, rfl, setV_frame s x _, fun k => ?_⟩⟩⟩
  · rw [setV_getV_self, BitVec.getLsbD_or]
  · rw [setV_getV_self, BitVec.getLsbD_and]
  · rw [setV_getV_self, BitVec.getLsbD_xor]

/-- Settles O25: the shifted register is the operand that `SHIFT_SOURCE` names; VF is written last. -/
theorem shiftsEvictIntoFlag : Obligations.ShiftsEvictIntoFlag := by
  refine fun x y => ⟨decode_wordXYN_eight_six x y, decode_wordXYN_eight_fourteen x y, fun s b hb => ?_⟩
  have hb : b = (s.getV (shiftOperand shiftSource x y)).toNat := hb
  subst hb
  refine ⟨⟨_, rfl, ?_, fun hx => ?_, setWithFlag_frame s x _ _⟩, ⟨_, rfl, ?_, fun hx => ?_, setWithFlag_frame s x _ _⟩⟩
  · rw [shiftRightInto, setWithFlag_getV_vF, evictedLow_toNat]
  · rw [shiftRightInto, setWithFlag_getV_of_ne s hx, shiftRight_one_toNat]
  · rw [shiftLeftInto, setWithFlag_getV_vF, evictedHigh_toNat]
  · rw [shiftLeftInto, setWithFlag_getV_of_ne s hx, shiftLeft_one_toNat]

/-- Settles O26: the draw counter goes on by one, and the byte it picked is masked. -/
theorem randomIsMaskedDraw : Obligations.RandomIsMaskedDraw := by
  refine fun x nn => ⟨decode_wordXNN_twelve x nn, fun s => ⟨_, rfl, rfl, fun k => ?_, ?_, ?_⟩⟩
  · rw [setV_getV_self, BitVec.getLsbD_and, State.draw]
  · rw [setV_getV_self, BitVec.toNat_and]
    exact Nat.and_le_right
  · exact changesOnly_comp (draw_frame s) (setV_frame _ x _) (fun _ => .inr) (fun _ => .inl)

end Sys2Proof.Machine
end

section
/-! PROOF of O33 and O34: a stored block read back, by FX65 and by the fetch (43_index_memory.md FX55 and FX65; D19). -/

namespace Sys2Proof.Machine

theorem storeRegs_pc (s : State) (base : Nat) (rs : List RegIx) : (s.storeRegs base rs).pc = s.pc := by
  rw [storeRegs_eq]

/-- A register of the stored block reads back at its own address (R214). -/
theorem storeRegs_regBlock_readByte (s : State) (base : Nat) {x q : RegIx} (hq : q ≤ x) :
    (s.storeRegs base (regBlock x)).readByte (base + q.val) = s.getV q :=
  (storeRegs_readByte s base _).1 q ((mem_regBlock x q).2 hq)

/-- Settles O33: FX65 finds at each register's address what FX55 stored there; FX55 had the whole block inside memory. -/
theorem storeBlockThenLoad : Obligations.StoreBlockThenLoad := by
  intro x s t u hstore hmem hindex
  obtain ⟨⟨hend, -⟩, rfl⟩ := (storeBlockWith_eq_next _ x).1 hstore
  refine ⟨_, (execLdRegsMem_eq_next x).2 ⟨hindex ▸ hend, rfl⟩, fun q hq => ?_⟩
  rw [setIndex_getV, loadRegs_getV, if_pos ((mem_regBlock x q).2 hq), hmem, hindex, setIndex_readByte,
    storeRegs_regBlock_readByte s _ hq]

/-- Settles O34: the fetch at `pc`, which is where the block begins, reads the bytes of `V[0]` and `V[1]`. -/
theorem storeSeenByNextFetch : Obligations.StoreSeenByNextFetch := by
  intro x s t hx hindex hstore
  obtain ⟨⟨hend, -⟩, rfl⟩ := (storeBlockWith_eq_next _ x).1 hstore
  rw [hindex] at hend ⊢
  refine ⟨wordOfBytes (s.getV 0) (s.getV 1), (fetch_eq_some _ _).2 ?_, wordOfBytes_toNat _ _⟩
  have h0 := storeRegs_regBlock_readByte s s.pc.toNat (Fin.zero_le x)
  have h1 := storeRegs_regBlock_readByte s s.pc.toNat (q := 1) (x := x) hx
  rw [setIndex_pc, storeRegs_pc, setIndex_readByte, setIndex_readByte]
  exact ⟨by omega, congrArg₂ wordOfBytes h0.symm h1.symm⟩

end Sys2Proof.Machine
end

section
/-! PROOF of O38: the same sprite drawn twice (44_display.md R232, R234). -/

namespace Sys2Proof.Machine

variable {s : State} {x y : RegIx} {n : Nibble}

/-- Drawing leaves `I` and memory, so from the same origin the second sprite covers the same pixels. -/
theorem spriteLit_drawn (hx : (s.drawn x y n).getV x = s.getV x) (hy : (s.drawn x y n).getV y = s.getV y) (px py : Nat) :
    spriteLit (s.drawn x y n) x y n px py ↔ spriteLit s x y n px py := by
  unfold spriteLit
  rw [hx, hy]
  rfl

theorem pixel_of_outside (d : Display) {px py : Nat} (h : ¬ (px < 64 ∧ py < 32)) : d.pixel px py = false := dif_neg h

/-- A set bit of the sprite turns each pixel over twice (R232). -/
theorem drawn_drawn_pixel (hx : (s.drawn x y n).getV x = s.getV x) (hy : (s.drawn x y n).getV y = s.getV y) (px py : Nat) :
    ((s.drawn x y n).drawn x y n).disp.pixel px py = s.disp.pixel px py := by
  by_cases hin : px < 64 ∧ py < 32
  · obtain ⟨hpx, hpy⟩ := hin
    rw [Bool.eq_iff_iff, drawn_pixel _ x y n hpx hpy, drawn_pixel s x y n hpx hpy, spriteLit_drawn hx hy]
    tauto
  · rw [pixel_of_outside _ hin, pixel_of_outside _ hin]

/-- The second sprite meets a pixel that is on exactly where the first one turned it on. -/
theorem spriteCollides_drawn (hx : (s.drawn x y n).getV x = s.getV x) (hy : (s.drawn x y n).getV y = s.getV y) :
    spriteCollides (s.drawn x y n) x y n ↔
      ∃ px py, px < 64 ∧ py < 32 ∧ spriteLit s x y n px py ∧ s.disp.pixel px py = false := by
  refine exists_congr fun px => exists_congr fun py => and_congr_right fun hpx => and_congr_right fun hpy => ?_
  rw [spriteLit_drawn hx hy, drawn_pixel s x y n hpx hpy, ← Bool.not_eq_true]
  tauto

theorem drawn_getV_vF_eq_one : (s.drawn x y n).getV vF = 1 ↔ spriteCollides s x y n := by
  obtain ⟨hf, hc⟩ | ⟨hf, hc⟩ := drawn_getV_vF s x y n <;> simp [hf, hc]

/-- Settles O38: the second draw reads the rows that the first one read, and neither faults. -/
theorem drawTwiceRestores : Obligations.DrawTwiceRestores := by
  intro x y n s t hdraw hx hy
  obtain ⟨hrows, rfl⟩ := (execDrw_eq_next x y n).1 hdraw
  change (s.drawn x y n).getV x = _ at hx
  change (s.drawn x y n).getV y = _ at hy
  have hrows' : spriteRows n (originY ((s.drawn x y n).getV y)) = 0 ∨
      (s.drawn x y n).index.toNat + spriteRows n (originY ((s.drawn x y n).getV y)) ≤ 0x1000 := by
    rw [hy]
    exact hrows
  exact ⟨_, exec_drw_of_within _ x y n hrows', drawn_drawn_pixel hx hy,
    drawn_getV_vF_eq_one.trans (spriteCollides_drawn hx hy)⟩

end Sys2Proof.Machine
end

section
/-! PROOF of O39, O47, O48 and O50: keys, timers and loading (45_input_timer.md R250 to R252; 60_exceptions.md R281, R291, R292;
70_reset_and_hazards.md R302). -/

namespace Sys2Proof.Machine

variable {s : State}

/-- A byte names a pressed key where it is the number of one (R250, D9). -/
theorem pressed_iff (b : Byte) : s.pressed b = true ↔ ∃ k : KeyIx, b.toNat = k.val ∧ s.key[k] = true := by
  unfold State.pressed
  split
  next h =>
    refine ⟨fun hk => ⟨⟨b.toNat, h⟩, rfl, hk⟩, ?_⟩
    rintro ⟨k, hb, hk⟩
    simpa [hb] using hk
  next h =>
    refine ⟨fun hk => absurd hk Bool.false_ne_true, ?_⟩
    rintro ⟨k, hb, -⟩
    exact absurd (hb ▸ k.isLt) h

theorem setCaptured_frame (s : State) (k : KeyIx) : ChangesOnly (· = .captured) s { s with captured := some k } := by
  intro p hp
  cases p with
  | captured => exact absurd rfl hp
  | _ => rfl

/-- A key reported while seeking is latched, whatever was captured before (R292, D12). -/
theorem resolveKey_of_seeking (k : KeyIx) (h : s.seeking = true) : s.resolveKey k = { s with captured := some k } :=
  if_pos h

/-- A key reported in Idle is dropped (R292, D12). -/
theorem resolveKey_of_idle (k : KeyIx) (h : s.seeking = false) : s.resolveKey k = s :=
  if_neg (Bool.eq_false_iff.1 h)

/-- Settles O39: both skip on `pressed`, in opposite senses. -/
theorem keySkips : Obligations.KeySkips := by
  refine fun x => ⟨decode_wordXNN_skp x, decode_wordXNN_sknp x, fun s => ⟨_, _, rfl, rfl, ?_, ?_, skipIf_frame s _,
    skipIf_frame s _⟩⟩
  all_goals
    rw [← pressed_iff, skipIf_pc, skipIf_pc]
    intro hp
    simp [hp]

/-- Settles O47, by induction on the number of ticks: each takes 1 from what is left, and natural subtraction stops at 0. -/
theorem ticksReachZeroAndStay : Obligations.TicksReachZeroAndStay := by
  intro k
  induction k with
  | zero => exact fun s => ⟨rfl, rfl⟩
  | succ k ih =>
    intro s
    obtain ⟨-, hdt, hst, -⟩ := tickCountsDown s
    obtain ⟨ihdt, ihst⟩ := ih (perform .tickTimers s).1
    rw [List.replicate_succ, runOps_cons, ihdt, ihst, hdt, hst]
    omega

/-- Settles O48: a key is written, or latched while seeking. -/
theorem keyOperations : Obligations.KeyOperations := by
  intro k b s
  refine ⟨⟨Vector.getElem_set_self k.isLt, setKeyState_frame s k b⟩, fun hs => ?_, fun hs => resolveKey_of_idle k hs⟩
  rw [perform, resolveKey_of_seeking k hs]
  exact ⟨rfl, setCaptured_frame s k⟩

/-- Settles O50: a program that fits is a block of bytes stored at 0x200. -/
theorem loadWritesProgram : Obligations.LoadWritesProgram := by
  refine fun bytes s => ⟨fun h => perform_load_of_lt h, fun h => ?_⟩
  rw [perform_load_of_le h]
  exact ⟨rfl, fun k hk => writeBytes_readByte_add s 0x200 hk, writeBytes_frame s 0x200 bytes⟩

end Sys2Proof.Machine
end

section
/-! PROOF of O43: the frame of every instruction, from the frames of the operations it is made of (10_state.md sections 1 to 4). -/

namespace Sys2Proof.Machine

/-- FX0A changes `pc` and `seeking` while it waits, and a register and the key-wait state when it takes a key (R254). -/
theorem ldVxK_frame {s t : State} {x : RegIx} (h : exec (.ldVxK x) s = .next t) :
    ChangesOnly (fun p => p = .reg x ∨ p = .pc ∨ p = .seeking ∨ p = .captured) s t := by
  obtain ⟨-, rfl⟩ | ⟨k, -, rfl⟩ := (execLdVxK_eq_next x).1 h
  · exact changesOnly_comp (seek_frame s) (rewind_frame s.seek) (by rintro _ rfl; simp) (by rintro _ rfl; simp)
  · exact changesOnly_mono (takeKey_frame s x k) (by rintro _ (rfl | rfl | rfl) <;> simp)

/-- Settles O43: the operation that each instruction performs, and its frame. -/
theorem instructionFrame : Obligations.InstructionFrame := by
  intro i s t h
  cases i with
  | ret =>
    obtain ⟨a, rest, -, rfl⟩ := execRet_eq_next.1 h
    exact setStackPc_frame s rest a
  | call nnn =>
    obtain ⟨-, rfl⟩ := (callWith_eq_next _ nnn).1 h
    exact call_frame s nnn
  | drw x y n =>
    obtain ⟨-, rfl⟩ := (execDrw_eq_next x y n).1 h
    exact drawn_frame s x y n
  | ldVxK x => exact ldVxK_frame h
  | ldB x =>
    obtain ⟨-, rfl⟩ := (storeBcdWith_eq_next _ x).1 h
    exact writeBytes_frame s _ (bcdDigits (s.getV x))
  | ldMemRegs x =>
    obtain ⟨-, rfl⟩ := (storeBlockWith_eq_next _ x).1 h
    exact changesOnly_comp (storeRegs_regBlock_frame s _ x) (setIndex_frame _ _) (fun _ => .inr) (fun _ => .inl)
  | ldRegsMem x =>
    obtain ⟨-, rfl⟩ := (execLdRegsMem_eq_next x).1 h
    exact changesOnly_comp (loadRegs_regBlock_frame s _ x) (setIndex_frame _ _) (fun _ => .inr) (fun _ => .inl)
  | cls =>
    obtain rfl := Host.Outcome.next.inj h
    exact clear_frame s
  | jp | jpV0 =>
    obtain rfl := Host.Outcome.next.inj h
    exact jump_frame s _
  | seImm | sneImm | seReg | sneReg | skp | sknp =>
    obtain rfl := Host.Outcome.next.inj h
    exact skipIf_frame s _
  | ldImm x | addImm x | ldReg x | orReg x | andReg x | xorReg x | ldVxDt x =>
    obtain rfl := Host.Outcome.next.inj h
    exact setV_frame s x _
  | addReg x | sub x | shr x | subn x | shl x =>
    obtain rfl := Host.Outcome.next.inj h
    exact setWithFlag_frame s x _ _
  | rnd x =>
    obtain rfl := Host.Outcome.next.inj h
    exact changesOnly_comp (draw_frame s) (setV_frame _ x _) (fun _ => .inr) (fun _ => .inl)
  | ldI | ldF =>
    obtain rfl := Host.Outcome.next.inj h
    exact setIndex_frame s _
  | addI x =>
    obtain rfl := Host.Outcome.next.inj h
    exact addIndexWith_frame _ x s
  | ldDtVx =>
    obtain rfl := Host.Outcome.next.inj h
    exact setDt_frame s _
  | ldStVx =>
    obtain rfl := Host.Outcome.next.inj h
    exact setSt_frame s _
  | sys | nop5 | nop8 | nop9 | nopE | nopF =>
    obtain rfl := Host.Outcome.next.inj h
    exact changesOnly_refl _ s

end Sys2Proof.Machine
end

section
/-! PROOF of O44 and O45: what no instruction reads (10_state.md section 4, R38, R40, R41). `ST`, `dirty` and the keys are taken
together: running an instruction on a state in which they hold other values gives the outcome on the state itself, with those
values put in its place, but where the instruction writes them. Only EX9E and EXA1 need the keys to be the same. -/

namespace Sys2Proof.Machine

/-- Values for the parts that no instruction reads, but for the keys, which EX9E and EXA1 read. -/
structure Unread where
  st : Byte
  dirty : Bool
  key : Vector Bool 16

/-- The state with the given values in those parts. -/
def State.overlay (s : State) (o : Unread) : State := { s with st := o.st, dirty := o.dirty, key := o.key }

/-- The values that the state itself holds there. -/
def State.unread (s : State) : Unread := ⟨s.st, s.dirty, s.key⟩

/-- The values an instruction leaves there: 00E0 and DXYN set `dirty`, FX18 writes `ST` (R38, R40). -/
def Unread.after (o : Unread) (i : Instr) (s : State) : Unread :=
  match i with
  | .cls | .drw _ _ _ => { o with dirty := true }
  | .ldStVx x => { o with st := s.getV x }
  | _ => o

/-- Change the next state of an outcome; a fault or refusal has none. -/
def mapNext (g : State → State) : Result → Result
  | .next t => .next (g t)
  | .fault f => .fault f
  | .refused r => .refused r

variable {s t : State} {i : Instr} {o : Unread}

/-- Of two meanings with the same guard, one answers the changed state of the other. -/
theorem guarded_eq_mapNext {g : State → State} {c : Prop} [Decidable c] {f : Fault} {u : State} (h : u = g t) :
    (if c then raise f else .next u : Result) = mapNext g (if c then raise f else .next t) := by
  rw [h]
  split <;> rfl

/-! ### Operations that do not read the overlaid parts -/

theorem skipIf_overlay (s : State) (o : Unread) (c : Bool) : (s.overlay o).skipIf c = (s.skipIf c).overlay o := by
  cases c <;> rfl

theorem pressed_overlay (h : o.key = s.key) (b : Byte) : (s.overlay o).pressed b = s.pressed b := by
  simp only [State.pressed, State.overlay, h]

theorem flagIndexOverflow_overlay (s : State) (o : Unread) (sum : Nat) :
    (s.overlay o).flagIndexOverflow sum = (s.flagIndexOverflow sum).overlay o := by
  unfold State.flagIndexOverflow
  split <;> rfl

theorem addIndexWith_overlay (m : IndexMode) (x : RegIx) (s : State) (o : Unread) :
    addIndexWith m x (s.overlay o) = (addIndexWith m x s).overlay o :=
  flagIndexOverflow_overlay (s.setIndex _) o _

theorem writeBytes_overlay (s : State) (o : Unread) (a : Nat) (bs : List Byte) :
    (s.overlay o).writeBytes a bs = (s.writeBytes a bs).overlay o := by
  induction bs generalizing s a with
  | nil => rfl
  | cons b bs ih => exact ih (s.writeByte a b) (a + 1)

theorem storeRegs_overlay (s : State) (o : Unread) (base : Nat) (rs : List RegIx) :
    (s.overlay o).storeRegs base rs = (s.storeRegs base rs).overlay o := by
  induction rs generalizing s with
  | nil => rfl
  | cons r rs ih => exact ih (s.writeByte (base + r.val) (s.getV r))

theorem loadRegs_overlay (s : State) (o : Unread) (base : Nat) (rs : List RegIx) :
    (s.overlay o).loadRegs base rs = (s.loadRegs base rs).overlay o := by
  induction rs generalizing s with
  | nil => rfl
  | cons r rs ih => exact ih (s.setV r (s.readByte (base + r.val)))

theorem readBytes_overlay (s : State) (o : Unread) (a n : Nat) : (s.overlay o).readBytes a n = s.readBytes a n := by
  induction n generalizing a with
  | zero => rfl
  | succ n ih => exact congrArg (s.readByte a :: ·) (ih (a + 1))

/-- DXYN sets `dirty` whatever it was (R232). -/
theorem drawn_overlay (s : State) (o : Unread) (x y : RegIx) (n : Nibble) :
    (s.overlay o).drawn x y n = (s.drawn x y n).overlay { o with dirty := true } := by
  rw [State.drawn, readBytes_overlay]
  rfl

theorem execRet_overlay (s : State) (o : Unread) : execRet (s.overlay o) = mapNext (·.overlay o) (execRet s) := by
  have hstack : (s.overlay o).stack = s.stack := rfl
  rw [execRet, execRet, hstack]
  cases s.stack <;> rfl

theorem execLdVxK_overlay (x : RegIx) (s : State) (o : Unread) :
    execLdVxK x (s.overlay o) = mapNext (·.overlay o) (execLdVxK x s) := by
  have hcap : (s.overlay o).captured = s.captured := rfl
  rw [execLdVxK, execLdVxK, hcap]
  cases s.captured <;> rfl

/-! ### The outcome of an instruction on other values -/

/-- An instruction runs on other values of `ST`, `dirty` and the keys as on the state's own, and leaves them but where it writes
them; EX9E and EXA1 do so on the state's own keys. -/
theorem exec_overlay (hkey : (∀ x, i ≠ .skp x ∧ i ≠ .sknp x) ∨ o.key = s.key) :
    exec i (s.overlay o) = mapNext (·.overlay (o.after i s)) (exec i s) := by
  cases i with
  | ret => exact execRet_overlay s o
  | ldVxK x => exact execLdVxK_overlay x s o
  | call nnn => exact guarded_eq_mapNext rfl
  | skp x =>
    have hk := hkey.resolve_left fun h => (h x).1 rfl
    exact congrArg Host.Outcome.next ((skipIf_overlay s o _).trans (by rw [← pressed_overlay hk]; rfl))
  | sknp x =>
    have hk := hkey.resolve_left fun h => (h x).2 rfl
    exact congrArg Host.Outcome.next ((skipIf_overlay s o _).trans (by rw [← pressed_overlay hk]; rfl))
  | seImm | sneImm | seReg | sneReg => exact congrArg Host.Outcome.next (skipIf_overlay s o _)
  | addI x => exact congrArg Host.Outcome.next (addIndexWith_overlay _ x s o)
  | drw x y n => exact guarded_eq_mapNext (drawn_overlay s o x y n)
  | ldB x => exact guarded_eq_mapNext (writeBytes_overlay s o _ _)
  | ldMemRegs x => exact guarded_eq_mapNext (congrArg (State.setIndex · _) (storeRegs_overlay s o _ _))
  | ldRegsMem x => exact guarded_eq_mapNext (congrArg (State.setIndex · _) (loadRegs_overlay s o _ _))
  | _ => rfl

/-- A completing instruction leaves the values that `Unread.after` says. -/
theorem unread_of_next (h : exec i s = .next t) : t.unread = s.unread.after i s := by
  have hself : exec i s = mapNext (·.overlay (s.unread.after i s)) (exec i s) := exec_overlay (o := s.unread) (.inr rfl)
  rw [h] at hself
  exact congrArg State.unread (Host.Outcome.next.inj hself)

theorem after_key (o : Unread) (i : Instr) (s : State) : (o.after i s).key = o.key := by
  cases i <;> rfl

/-- No instruction writes a key, nor lets the keys decide what it writes. -/
theorem after_setKey (o : Unread) (i : Instr) (s : State) (ks : Vector Bool 16) :
    ({ o with key := ks } : Unread).after i s = { o.after i s with key := ks } := by
  cases i <;> rfl

/-- An overlay changes the parts in which it differs from the state. -/
theorem overlay_frame {w : Part → Prop} (hst : ¬ w .st → o.st = t.st) (hdirty : ¬ w .dirty → o.dirty = t.dirty)
    (hkey : ∀ k, ¬ w (.key k) → o.key[k] = t.key[k]) : ChangesOnly w t (t.overlay o) := by
  intro p hp
  cases p with
  | st => exact hst hp
  | dirty => exact hdirty hp
  | key k => exact hkey k hp
  | _ => rfl

/-! ### The statements -/

/-- Settles O44: the overlay of another `ST` and another `dirty`; the keys are the state's own. -/
theorem audioTimerAndDirtyAreUnread : Obligations.AudioTimerAndDirtyAreUnread := by
  intro i s v b
  have hrun := exec_overlay (i := i) (s := s) (o := ⟨v, b, s.key⟩) (.inr rfl)
  refine ⟨fun f hf => hrun.trans (by rw [hf]; rfl), fun t ht => ⟨_, hrun.trans (by rw [ht]; rfl), ?_⟩⟩
  have hkeys : t.key = s.key := (congrArg Unread.key (unread_of_next ht)).trans (after_key _ i s)
  refine overlay_frame (fun h => absurd (.inl rfl) h) (fun h => absurd (.inr rfl) h) fun k _ => ?_
  rw [after_key, hkeys]

/-- Settles O45: the overlay of other keys; `ST` and `dirty` are the state's own, and end as without the overlay. -/
theorem keysAreReadBySkipsAlone : Obligations.KeysAreReadBySkipsAlone := by
  intro i s ks hi
  have hrun := exec_overlay (i := i) (s := s) (o := { s.unread with key := ks }) (.inl hi)
  refine ⟨fun f hf => hrun.trans (by rw [hf]; rfl), fun t ht => ⟨_, hrun.trans (by rw [ht]; rfl), ?_⟩⟩
  rw [after_setKey, ← unread_of_next ht]
  exact overlay_frame (fun _ => rfl) (fun _ => rfl) fun k hk => absurd ⟨k, rfl⟩ hk

end Sys2Proof.Machine
end
